-- ==== Sys2Proof/Word.lean ====
section
/-! DEFINITION. The value types of the block (`00_scope.md` R7, `10_state.md` R21, R24): bytes, 12-bit codeword
values, the 24-bit read window, and the four legal codeword widths. -/

namespace Sys2Proof

/-- A byte (R7: "A byte is 8 bits"). -/
abbrev Byte := BitVec 8

/-- The value of a codeword, or of a prefix codeword: at most 12 bits (R24, R29, R31). -/
abbrev Code := BitVec 12

/-- The 24-bit window the BitReader assembles for one read (R64, `WINDOW_BYTES` = 3). -/
abbrev Window := BitVec 24

/-- The codeword width `W`: 9, 10, 11 or 12 and nothing else (R21; R123: "the model gives `W` a four-valued type and
defines nothing else"). -/
inductive Width where
  | w9
  | w10
  | w11
  | w12
  deriving DecidableEq, Repr

/-- The number of bits of a width. -/
def Width.bits : Width → Nat
  | .w9 => 9
  | .w10 => 10
  | .w11 => 11
  | .w12 => 12

end Sys2Proof
end

