-- ==== Sys2Proof/Config.lean ====
section
/-! DEFINITION. The fixed constants of the format and the open parameters of the block (`00_scope.md` R6), and the
free values: opaque constants for what the spec leaves unspecified (R14, R38). -/

namespace Sys2Proof

/-- The open parameters of R6, fixed for a given block (R40). They stand in the state as a field that no operation
writes, so a statement about every state is a statement about every value of them. -/
structure Config where
  /-- `DICT_LIMIT`: exclusive upper bound of the dictionary index (R6, R132, D8). -/
  dictLimit : Nat
  /-- `STACK_DEPTH`: the number of byte slots of the ExpansionStack (R6, R144, D9). -/
  stackDepth : Nat
  /-- `SRC_LEN_MAX`: the largest source length the host can express (R6, D19). -/
  srcLenMax : Nat
  deriving DecidableEq, Repr

namespace Config

/-- The constraints R6 puts on the parameters: `DICT_LIMIT >= 0x1000` and `STACK_DEPTH >= 1`. -/
abbrev Valid (p : Config) : Prop := 0x1000 ≤ p.dictLimit ∧ 1 ≤ p.stackDepth

/-- The values the test vectors use (`95_test_vectors.md`, conventions) with a `SRC_LEN_MAX` of 32 bits.
DESIGN CHOICE, log entry 1: the state at reset carries these; every statement is about all valid parameters. -/
def vectors : Config := { dictLimit := 0x1000, stackDepth := 4096, srcLenMax := 0xFFFFFFFF }

/-- `CODE_RESET` (R6). -/
def codeReset : Code := 0x100#12

/-- `CODE_END` (R6). -/
def codeEnd : Code := 0x101#12

/-- `FIRST_FREE` (R6): the first dictionary-assigned codeword, and the value of `N` after a reset. -/
def firstFree : Nat := 0x102

/-- `D_INIT` (R6): the dictionary size ceiling at width 9. -/
def dInit : Nat := 0x200

/-- `DST_CAP_MAX` (R6): the largest destination capacity. -/
def dstCapMax : Nat := 0xFFFFFF

/-- Free value: an unspecified 12-bit register (`PW` after a reset code or `START`, `CW` between steps; R24, R29,
R39). Applied to the state's draw counter; log entry 2. -/
opaque freeCode : Nat → Code

/-- Free value: an unspecified byte register (`C` between steps and after `START`; R29, R39). Log entry 2. -/
opaque freeByte : Nat → Byte

/-- Free value: the prefix of a dictionary element that no add has written since `START` (R31, R39). First argument:
the draw made by the last `START`; second: the index. Log entry 3. -/
opaque freePrefix : Nat → Nat → Code

/-- Free value: the trailing byte of such an element. Log entry 3. -/
opaque freeTrailing : Nat → Nat → Byte

end Config

end Sys2Proof
end

