-- ==== Sys2Proof/Syntax.lean ====
section
/-! DEFINITION. The operations of `spec/opcode_table.json`, one constructor per mnemonic. The codeword mnemonics have
one row per width in the table (R96); the width is an operand here. -/

namespace Sys2Proof

/-- The operations of the block: the codewords of the stream (R94, R97) and the component operations and host command
that the table lists with the format "internal" (R98). -/
inductive Instr where
  /-- `RESET`, codeword 0x100 (R94). -/
  | reset (w : Width)
  /-- `END`, codeword 0x101 (R94). -/
  | endStream (w : Width)
  /-- `LIT`, a codeword at most 0x0FF; the operand is the byte (R94, R95). -/
  | lit (w : Width) (b : Byte)
  /-- `CODE`, a codeword at least 0x102; the operand is the codeword itself (R94, R95). -/
  | code (w : Width) (cw : Code)
  /-- `KWKWK`, the state-dependent name of a `CODE` codeword equal to `N` (R97, R184). -/
  | kwkwk (w : Width) (cw : Code)
  /-- `INVALID`, the state-dependent name of a `CODE` codeword above `N` (R97, R186). -/
  | invalid (w : Width) (cw : Code)
  /-- `BR.READ` (R120). -/
  | brRead
  /-- `DICT.RESET` (R130). -/
  | dictReset
  /-- `DICT.ADD` of a prefix codeword and a trailing byte (R131). -/
  | dictAdd (p : Code) (b : Byte)
  /-- `DICT.RESOLVE` of a codeword (R133). -/
  | dictResolve (k : Code)
  /-- `STK.PUSH` of a byte (R140). -/
  | stkPush (b : Byte)
  /-- `STK.POP` (R141). -/
  | stkPop
  /-- `STK.IS_EMPTY` (R142). -/
  | stkIsEmpty
  /-- `STK.TOP` (R143). -/
  | stkTop
  /-- `EXPAND` of a codeword (R145). -/
  | expand (k : Code)
  /-- `FLUSH` (R146). -/
  | flush
  /-- `EMIT` of a byte (R180). -/
  | emit (b : Byte)
  /-- `DATA` (R181). -/
  | data
  /-- `TAIL` (R185). -/
  | tail
  /-- `GROW` (R195). -/
  | grow
  /-- `DO_RESET` (R164). -/
  | doReset
  /-- `FIRST_LITERAL` (R167). -/
  | firstLiteral
  /-- `STEP` (R160). -/
  | step
  /-- `START`, the host's command (R241). -/
  | start
  deriving DecidableEq, Repr

end Sys2Proof
end

