-- ==== Sys2Proof/WellFormed.lean ====
section
/-! DEFINITION. Well-formed operations: the operand ranges of `30_encoding.md` R94, R95 for codewords, and of the
component contracts R131, R133, R145 for the internal operations. -/

namespace Sys2Proof

/-- The codeword value has no bit at or above the width (R90). -/
def Code.fits (w : Width) (cw : Code) : Bool := decide (cw.toNat < 2 ^ w.bits)

/-- A composite code: 0x102 or above (R94). -/
def Code.isComposite (cw : Code) : Bool := decide (0x102 ≤ cw.toNat)

/-- One of the two control codes 0x100 and 0x101 (R100). -/
def Code.isControl (cw : Code) : Bool := decide (cw = Config.codeReset) || decide (cw = Config.codeEnd)

/-- The operand of a `CODE` codeword of width `w`: composite, and within the width. -/
def Code.validCode (w : Width) (cw : Code) : Bool := Code.isComposite cw && Code.fits w cw

/-- Well-formedness, checked on the operation alone. A control code is never a prefix (R100) and never expanded
(R145); `resolve` is never given a codeword below 0x102 (R133). -/
def Instr.wellFormed : Instr → Bool
  | .reset _ => true
  | .endStream _ => true
  | .lit _ _ => true
  | .code w cw => Code.validCode w cw
  | .kwkwk w cw => Code.validCode w cw
  | .invalid w cw => Code.validCode w cw
  | .brRead => true
  | .dictReset => true
  | .dictAdd p _ => !Code.isControl p
  | .dictResolve k => Code.isComposite k
  | .stkPush _ => true
  | .stkPop => true
  | .stkIsEmpty => true
  | .stkTop => true
  | .expand k => !Code.isControl k
  | .flush => true
  | .emit _ => true
  | .data => true
  | .tail => true
  | .grow => true
  | .doReset => true
  | .firstLiteral => true
  | .step => true
  | .start => true

end Sys2Proof
end

