-- ==== Sys2Proof/Decode.lean ====
section
/-! DEFINITION. From stream bits to a codeword operation and back: the 24-bit window (`20_memory.md` R64), the
extraction of a codeword (`40_bitreader.md` R120, R125), static decoding (`30_encoding.md` R96), the encoder (R94,
R95), the width schedule of a listed stream (R104) and the packer (R105). -/

namespace Sys2Proof

/-! ## Decoding -/

/-- Why the decoder refuses bits, by name. -/
inductive DecodeError where
  /-- The value has a bit at or above the width, so it is no codeword of that width (R90). -/
  | codewordTooWide (w : Width) (cw : Code)
  /-- The codeword does not lie wholly inside the bytes given (R122). -/
  | sourceExhausted (bitpos : Nat) (w : Width)
  deriving DecidableEq, Repr

/-- `word24 = b0 | (b1 << 8) | (b2 << 16)` (R64: byte0 least significant). -/
def windowOf (b0 b1 b2 : Byte) : Window :=
  b0.setWidth 24 ||| (b1.setWidth 24 <<< 8) ||| (b2.setWidth 24 <<< 16)

/-- The mask `(1 << W) - 1` of a width, in the window (R120: 0x1FF, 0x3FF, 0x7FF, 0xFFF). -/
def widthMask (w : Width) : Window := (1#24 <<< w.bits) - 1#24

/-- `(word24 >> s) & ((1 << W) - 1)` (R120); the result has at most 12 bits. -/
def codewordAt (win : Window) (s : Nat) (w : Width) : Code := ((win >>> s) &&& widthMask w).setWidth 12

/-- Static decoding from the bits alone, in the order of R96: `RESET`, `END`, `LIT`, and `CODE` for the rest. -/
def classify (w : Width) (cw : Code) : Instr :=
  if cw = Config.codeReset then .reset w
  else if cw = Config.codeEnd then .endStream w
  else if cw &&& 0xF00#12 = 0#12 then .lit w (cw.setWidth 8)
  else .code w cw

/-- The decoder: total on any width and value. The only values refused are those that are no codeword of the width
(R90); no bit pattern of a width is illegal by itself (R99). -/
def decode (w : Width) (cw : Code) : Except DecodeError Instr :=
  if Code.fits w cw then .ok (classify w cw) else .error (.codewordTooWide w cw)

/-- The byte at an index of a byte list, 0x00 beyond its end (R68). -/
def byteAt (bytes : List Byte) (a : Nat) : Byte := bytes.getD a 0#8

/-- Decoding at a bit cursor of any list of bytes: the admission test of R122, the window, the extraction, and static
decoding. -/
def decodeBytes (w : Width) (bitpos : Nat) (bytes : List Byte) : Except DecodeError Instr :=
  if 8 * bytes.length < bitpos + w.bits then .error (.sourceExhausted bitpos w)
  else
    let i := bitpos / 8
    decode w (codewordAt (windowOf (byteAt bytes i) (byteAt bytes (i + 1)) (byteAt bytes (i + 2))) (bitpos % 8) w)

/-! ## The opcode table's static rows -/

/-- The four static classes of R94. -/
inductive CodewordClass where
  | reset
  | endStream
  | lit
  | code
  deriving DecidableEq, Repr

/-- One static row of `opcode_table.json` (R96): a codeword belongs to it when its bits under the mask equal the
pattern. -/
structure OpcodeRow where
  pattern : Code
  mask : Code
  cls : CodewordClass
  deriving DecidableEq, Repr

/-- The four static rows of a width, by priority (`opcode_table.json`, formats `cw9` to `cw12`). -/
def opcodeRows : Width → List OpcodeRow
  | .w9 => [⟨0x100#12, 0x1FF#12, .reset⟩, ⟨0x101#12, 0x1FF#12, .endStream⟩, ⟨0x000#12, 0x100#12, .lit⟩,
      ⟨0x000#12, 0x000#12, .code⟩]
  | .w10 => [⟨0x100#12, 0x3FF#12, .reset⟩, ⟨0x101#12, 0x3FF#12, .endStream⟩, ⟨0x000#12, 0x300#12, .lit⟩,
      ⟨0x000#12, 0x000#12, .code⟩]
  | .w11 => [⟨0x100#12, 0x7FF#12, .reset⟩, ⟨0x101#12, 0x7FF#12, .endStream⟩, ⟨0x000#12, 0x700#12, .lit⟩,
      ⟨0x000#12, 0x000#12, .code⟩]
  | .w12 => [⟨0x100#12, 0xFFF#12, .reset⟩, ⟨0x101#12, 0xFFF#12, .endStream⟩, ⟨0x000#12, 0xF00#12, .lit⟩,
      ⟨0x000#12, 0x000#12, .code⟩]

/-- The class of the first row that a codeword matches (R96: the smallest `priority` number wins). -/
def firstMatch : List OpcodeRow → Code → Option CodewordClass
  | [], _ => none
  | r :: rest, cw => if cw &&& r.mask = r.pattern then some r.cls else firstMatch rest cw

/-- The class of a decoded operation; the alias rows have `CODE`'s class (R97). -/
def Instr.codewordClass : Instr → Option CodewordClass
  | .reset _ => some .reset
  | .endStream _ => some .endStream
  | .lit _ _ => some .lit
  | .code _ _ => some .code
  | .kwkwk _ _ => some .code
  | .invalid _ _ => some .code
  | .brRead => none
  | .dictReset => none
  | .dictAdd _ _ => none
  | .dictResolve _ => none
  | .stkPush _ => none
  | .stkPop => none
  | .stkIsEmpty => none
  | .stkTop => none
  | .expand _ => none
  | .flush => none
  | .emit _ => none
  | .data => none
  | .tail => none
  | .grow => none
  | .doReset => none
  | .firstLiteral => none
  | .step => none
  | .start => none

/-! ## Encoding -/

/-- A codeword: a width and a value (R90). -/
structure Codeword where
  width : Width
  value : Code
  deriving DecidableEq, Repr

/-- The codeword of a stream operation (R94, R95); the internal operations are not encoded in the stream (R98). -/
def encode : Instr → Option Codeword
  | .reset w => some ⟨w, 0x100#12⟩
  | .endStream w => some ⟨w, 0x101#12⟩
  | .lit w b => some ⟨w, b.setWidth 12⟩
  | .code w cw => some ⟨w, cw⟩
  | .kwkwk w cw => some ⟨w, cw⟩
  | .invalid w cw => some ⟨w, cw⟩
  | .brRead => none
  | .dictReset => none
  | .dictAdd _ _ => none
  | .dictResolve _ => none
  | .stkPush _ => none
  | .stkPop => none
  | .stkIsEmpty => none
  | .stkTop => none
  | .expand _ => none
  | .flush => none
  | .emit _ => none
  | .data => none
  | .tail => none
  | .grow => none
  | .doReset => none
  | .firstLiteral => none
  | .step => none
  | .start => none

/-- The operation a static decoder gives for the codeword of a stream operation: the alias rows `KWKWK` and `INVALID`
share `CODE`'s bits, and "a static decoder ignores the alias rows" (R97). -/
def Instr.staticName : Instr → Instr
  | .kwkwk w cw => .code w cw
  | .invalid w cw => .code w cw
  | .reset w => .reset w
  | .endStream w => .endStream w
  | .lit w b => .lit w b
  | .code w cw => .code w cw
  | .brRead => .brRead
  | .dictReset => .dictReset
  | .dictAdd p b => .dictAdd p b
  | .dictResolve k => .dictResolve k
  | .stkPush b => .stkPush b
  | .stkPop => .stkPop
  | .stkIsEmpty => .stkIsEmpty
  | .stkTop => .stkTop
  | .expand k => .expand k
  | .flush => .flush
  | .emit b => .emit b
  | .data => .data
  | .tail => .tail
  | .grow => .grow
  | .doReset => .doReset
  | .firstLiteral => .firstLiteral
  | .step => .step
  | .start => .start

/-- The total bit count of a list of codewords (R105: `T`). -/
def totalBits : List Codeword → Nat
  | [] => 0
  | c :: rest => c.width.bits + totalBits rest

/-- The integer `sum over j of v_j << p_j` (R105). -/
def packNat : List Codeword → Nat
  | [] => 0
  | c :: rest => c.value.toNat + 2 ^ c.width.bits * packNat rest

/-- An integer as bytes, least significant byte first. -/
def bytesOf : Nat → Nat → List Byte
  | 0, _ => []
  | count + 1, n => BitVec.ofNat 8 n :: bytesOf count (n / 256)

/-- The packer (R105): `ceil(T / 8)` bytes, pad bits 0 (R106). -/
def pack (cws : List Codeword) : List Byte := bytesOf ((totalBits cws + 7) / 8) (packNat cws)

/-! ## The widths of a listed stream -/

/-- How far the schedule of R104 has come. -/
inductive SchedulePhase where
  | awaitingReset
  | postReset
  | running
  deriving DecidableEq, Repr

/-- The schedule state of R104; its `d` is `1 << w`. -/
structure Schedule where
  w : Width
  n : Nat
  phase : SchedulePhase
  deriving DecidableEq, Repr

/-- Before the first codeword (R104). -/
def Schedule.initial : Schedule := { w := .w9, n := 0x102, phase := .awaitingReset }

/-- The next larger width; 12 stays 12 (R195: growth stops at `W == 12`). -/
def widen : Width → Width
  | .w9 => .w10
  | .w10 => .w11
  | .w11 => .w12
  | .w12 => .w12

/-- One codeword of the schedule (R104). -/
def Schedule.next (s : Schedule) (v : Code) : Schedule :=
  if v = Config.codeReset then { w := .w9, n := 0x102, phase := .postReset }
  else if v = Config.codeEnd then s
  else match s.phase with
    | .awaitingReset => s
    | .postReset => if v.toNat ≤ 0xFF then { s with phase := .running } else s
    | .running => { s with n := s.n + 1, w := if 2 ^ s.w.bits ≤ s.n + 1 then widen s.w else s.w }

/-- The codewords of a listed stream, each with the width the decoder uses at that point (R104). -/
def assignWidths : Schedule → List Code → List Codeword
  | _, [] => []
  | s, v :: rest => ⟨s.w, v⟩ :: assignWidths (s.next v) rest

/-- The bytes of a listed stream: widths by R104, packed by R105. -/
def streamBytes (values : List Code) : List Byte := pack (assignWidths .initial values)

/-! ## The host's question about a row's word -/

/-- The width of a word of the table: the number of bits given, where that is a width; otherwise (the bits rounded up to
whole bytes) the least width that holds the word. Log entry 4. -/
def tableWidth (nbits w : Nat) : Option Width :=
  if nbits = 9 then some .w9
  else if nbits = 10 then some .w10
  else if nbits = 11 then some .w11
  else if nbits = 12 then some .w12
  else if nbits = 0 then none
  else if w < 0x200 then some .w9
  else if w < 0x400 then some .w10
  else if w < 0x800 then some .w11
  else if w < 0x1000 then some .w12
  else none

/-- The operation the decoder reads from a word of the opcode table, laid out as the first bytes of a stream. Rows of
the format "internal" have no bits and so no word. -/
def decodeTableWord (nbits w : Nat) : Option Instr :=
  match tableWidth nbits w with
  | none => none
  | some wd =>
    if w < 2 ^ wd.bits then
      match decodeBytes wd 0 (bytesOf 2 w) with
      | .ok i => some i
      | .error _ => none
    else none

end Sys2Proof
end

