-- ==== Sys2Proof/Machine/State.lean ====
section
/-! DEFINITION. The state of the block (`10_state.md` R20 to R35, `20_memory.md` R60), the reasons a step can stop, and
the state at power-on (`10_state.md` R39, `70_reset_and_hazards.md` R240). -/

namespace Sys2Proof.Machine

/-- `PHASE`, the control state: six values (R27). -/
inductive Phase where
  | idle
  | awaitingReset
  | postReset
  | running
  | done
  | fault
  deriving DecidableEq, Repr

/-- `ERR_KIND` (R28, R210). -/
inductive ErrKind where
  | noError
  | invalidContainer
  | corruptStream
  | bufferOverrun
  | internalLimitExceeded
  deriving DecidableEq, Repr

/-- `ERR_CAUSE` (R28, R215); `shortWrite` is the host's and the core never records it (R219). -/
inductive ErrCause where
  | noError
  | firstNotReset
  | codeBeyondNextFree
  | nonliteralAfterReset
  | chainInconsistent
  | sourceExhausted
  | destFull
  | shortWrite
  | dictFull
  | stackFull
  deriving DecidableEq, Repr

/-- One element of the dictionary table: `DICT_PREFIX[i]` and `DICT_BYTE[i]` (R31). -/
structure DictEntry where
  pfx : Code
  byte : Byte
  deriving DecidableEq, Repr

/-- What a component operation returned (R131, R133, R141, R142, R143), when the operation is executed by itself. -/
inductive OpResult where
  /-- No value has been returned. -/
  | nothing
  /-- `DICT.ADD`: the assigned codeword. -/
  | assigned (a : Nat)
  /-- `DICT.RESOLVE`: the pair. -/
  | entry (e : DictEntry)
  /-- `STK.POP`, `STK.TOP`: the byte. -/
  | byte (b : Byte)
  /-- `STK.IS_EMPTY`: the truth value. -/
  | truth (t : Bool)
  deriving DecidableEq, Repr

/-- What the host may do while the block is not running (R224): write the buffers and the configuration registers, and
issue `START`. -/
inductive HostAction where
  | writeSrc (a : Nat) (b : Byte)
  | writeDst (a : Nat) (b : Byte)
  | setSrcLen (n : Nat)
  | setDstCap (n : Nat)
  | start
  deriving DecidableEq, Repr

/-- A byte memory: pairs of an address and a byte, addresses strictly rising. An address not listed has no value: the
host has not placed a byte there (R39, D20; log entry 5). -/
abbrev Memory := List Host.Cell

/-- The dictionary table: pairs of an index and an element, indices strictly rising. An index not listed is an element
no add has written since `START` (R31, R39). -/
abbrev DictTable := List (Nat × DictEntry)

/-- The complete state of the block (R20), the parameters it is built with (R6), and the model's own fields. -/
structure State where
  /-- The parameters `DICT_LIMIT`, `STACK_DEPTH`, `SRC_LEN_MAX` (R6, R40); no operation writes them. -/
  cfg : Config
  /-- `W`, the current codeword width (R21). -/
  w : Width
  /-- `D`, the dictionary size ceiling (R22). -/
  d : Nat
  /-- `N`, the next free dictionary index (R23). -/
  n : Nat
  /-- `PW`, the previous codeword (R24). -/
  pw : Code
  /-- `BITPOS`, the bit cursor and program counter (R25). -/
  bitpos : Nat
  /-- `WR`, the write cursor (R26). -/
  wr : Nat
  /-- `PHASE` (R27). -/
  phase : Phase
  /-- `ERR_KIND` (R28). -/
  errKind : ErrKind
  /-- `ERR_CAUSE` (R28). -/
  errCause : ErrCause
  /-- `CW`, the codeword read by the step (R29). -/
  cw : Code
  /-- `C`, the first byte of the current expansion (R29). -/
  c : Byte
  /-- `DICT_PREFIX`, `DICT_BYTE` (R31). -/
  dict : DictTable
  /-- `STK[SP-1], ..., STK[0]`: the top of the stack first; `SP` is the length (R32). Slots from `SP` on are not kept
  (R36; log entry 13). -/
  stk : List Byte
  /-- `SRC_LEN` (R33). -/
  srcLen : Nat
  /-- `DST_CAP` (R33). -/
  dstCap : Nat
  /-- `SRC`, the source space (R61). -/
  src : Memory
  /-- `DST`, the destination space (R62). -/
  dst : Memory
  /-- Model's own: what the host will do when the block is next not running, first action first (R20, R224). -/
  hostQueue : List HostAction
  /-- Model's own: the value returned by the last component operation executed by itself (log entry 6). -/
  result : OpResult
  /-- Model's own: how many free values have been drawn (log entry 2). -/
  draws : Nat
  /-- Model's own: the draw that stands for the dictionary's unspecified contents since `START` (log entry 3). -/
  tableSeed : Nat
  deriving DecidableEq, Repr

/-- `SP`, the number of bytes on the stack (R32). -/
def State.sp (s : State) : Nat := s.stk.length

/-- The machine stops. -/
inductive Fault where
  /-- Raised by `Machine.step`, and by the meanings of the codewords and of `STEP`, when `PHASE` is `IDLE`, `DONE` or
  `FAULT` and the host has nothing to do: no step is enabled (R27, R171, R222). Safe: the block takes no step either. -/
  | noStepEnabled (p : Phase)
  /-- Raised by `BR.READ` when the window needs a byte below `SRC_LEN` that the host never placed (R38, D20). Safe: the
  hardware would go on with some byte. -/
  | sourceByteUnwritten (a : Nat)
  deriving DecidableEq, Repr

/-- The model has no meaning for the form. -/
inductive Refusal where
  /-- Answered by `exec` for an instruction with no meaning in the model (none at present). Safe. -/
  | notModelled (mnemonic : String)
  /-- Answered by `START` in a running phase (R255, U19, D23). Safe. -/
  | startWhileRunning
  /-- Answered by `STK.TOP` on an empty stack (R151, U6). Safe. -/
  | topOfEmptyStack
  /-- Answered by `STK.POP` on an empty stack (R153, U7). Safe. -/
  | popOfEmptyStack
  /-- Answered by `DICT.RESOLVE` for a codeword below 0x102 or not below `N` (R134, U3). Safe. -/
  | resolveOutsideContract (k : Code)
  /-- Answered to the host's write of `DST_CAP` above 0xFFFFFF (R33, U23). Safe. -/
  | dstCapTooLarge (n : Nat)
  /-- Answered to the host's write of `SRC_LEN` above `SRC_LEN_MAX` (R33). Safe. -/
  | srcLenTooLarge (n : Nat)
  /-- Answered to the host's write of a byte at an index that no buffer can have (R61, R62). Safe. -/
  | hostAddressOutside (a : Nat)
  deriving DecidableEq, Repr

/-- The state at power-on (R39, R240): `PHASE = IDLE`, `ERR_KIND = ERR_CAUSE = NONE`. The spec leaves every other
register unspecified there; the values below are the model's (DESIGN CHOICE, log entry 7). Nothing is listed in the
memories, the dictionary or the stack. -/
def State.reset : State where
  cfg := Config.vectors
  w := .w9
  d := Config.dInit
  n := Config.firstFree
  pw := 0#12
  bitpos := 0
  wr := 0
  phase := .idle
  errKind := .noError
  errCause := .noError
  cw := 0#12
  c := 0#8
  dict := []
  stk := []
  srcLen := 0
  dstCap := 0
  src := []
  dst := []
  hostQueue := []
  result := .nothing
  draws := 0
  tableSeed := 0

end Sys2Proof.Machine
end

