-- ==== Sys2Proof/Machine/Store.lean ====
section
/-! DEFINITION. Sparse stores: lists of key and value pairs with strictly rising keys, used for the memories `SRC` and
`DST` (`20_memory.md` R60) and for the dictionary table (`10_state.md` R31). -/

namespace Sys2Proof.Machine

/-- The value listed for a key. -/
def Store.get? {α : Type} : List (Nat × α) → Nat → Option α
  | [], _ => none
  | (k, v) :: rest, a => if k = a then some v else Store.get? rest a

/-- Write a value at a key, keeping the keys in rising order. -/
def Store.set {α : Type} : List (Nat × α) → Nat → α → List (Nat × α)
  | [], a, x => [(a, x)]
  | (k, v) :: rest, a, x =>
    if a < k then (a, x) :: (k, v) :: rest
    else if a = k then (a, x) :: rest
    else (k, v) :: Store.set rest a x

/-- Every key is at least the bound, and the keys strictly rise. -/
def Store.risingFrom {α : Type} : Nat → List (Nat × α) → Bool
  | _, [] => true
  | lo, (k, _) :: rest => decide (lo ≤ k) && Store.risingFrom (k + 1) rest

/-- The canonical form of a memory: addresses strictly rising. An unlisted address has no value, so no entry can equal
what an unlisted address reads as. -/
def Memory.wf (m : Memory) : Bool := Store.risingFrom 0 m

/-- The canonical form of the dictionary table: indices strictly rising, none below 0x102 (R31). -/
def DictTable.wf (t : DictTable) : Bool := Store.risingFrom Config.firstFree t

/-- What an address of a memory reads as; an unlisted address has no value (log entry 5). -/
def Memory.read (m : Memory) (a : Nat) : Option Byte := Store.get? m a

/-- Write one byte. -/
def Memory.write (m : Memory) (a : Nat) (b : Byte) : Memory := Store.set m a b

end Sys2Proof.Machine
end

