-- ==== Sys2Proof/Machine/Flags.lean ====
section
/-! DEFINITION. The status the host reads (`10_state.md` R34, R35; `60_exceptions.md` R215; `43_decoder_control.md`
R172) and the phase predicates (`10_state.md` R27). The block has no condition codes. -/

namespace Sys2Proof.Machine

/-- The running phases, in which a step is enabled (R27). -/
def Phase.isRunning : Phase → Bool
  | .idle => false
  | .awaitingReset => true
  | .postReset => true
  | .running => true
  | .done => false
  | .fault => false

/-- The terminal phases (R27). -/
def Phase.isTerminal : Phase → Bool
  | .idle => false
  | .awaitingReset => false
  | .postReset => false
  | .running => false
  | .done => true
  | .fault => true

/-- The numeric codes of `ERR_KIND` (R215). -/
def ErrKind.num : ErrKind → Nat
  | .noError => 0
  | .invalidContainer => 1
  | .corruptStream => 2
  | .bufferOverrun => 3
  | .internalLimitExceeded => 4

/-- The numeric codes of `ERR_CAUSE` (R215, and R219 for `SHORT_WRITE`). -/
def ErrCause.num : ErrCause → Nat
  | .noError => 0x00
  | .firstNotReset => 0x10
  | .codeBeyondNextFree => 0x20
  | .nonliteralAfterReset => 0x21
  | .chainInconsistent => 0x22
  | .sourceExhausted => 0x30
  | .destFull => 0x31
  | .shortWrite => 0x32
  | .dictFull => 0x40
  | .stackFull => 0x41

/-- The kind a cause belongs to (R211 to R214). -/
def ErrCause.kind : ErrCause → ErrKind
  | .noError => .noError
  | .firstNotReset => .invalidContainer
  | .codeBeyondNextFree => .corruptStream
  | .nonliteralAfterReset => .corruptStream
  | .chainInconsistent => .corruptStream
  | .sourceExhausted => .bufferOverrun
  | .destFull => .bufferOverrun
  | .shortWrite => .bufferOverrun
  | .dictFull => .internalLimitExceeded
  | .stackFull => .internalLimitExceeded

/-- `STATUS`, the host's read of `PHASE` (R34). -/
def State.status (s : State) : Phase := s.phase

/-- `BYTES_WRITTEN`, the host's read of `WR` (R34). -/
def State.bytesWritten (s : State) : Nat := s.wr

/-- `SHORT == (PHASE == DONE and WR != DST_CAP)` (R35). -/
def State.short (s : State) : Bool := decide (s.phase = .done) && decide (s.wr ≠ s.dstCap)

/-- Success of an invocation: `PHASE == DONE and WR == DST_CAP` (R172). -/
def State.success (s : State) : Bool := decide (s.phase = .done) && decide (s.wr = s.dstCap)

end Sys2Proof.Machine
end

