-- ==== Sys2Proof/Machine/Operands.lean ====
section
/-! DEFINITION. Operand assembly (`30_encoding.md` R95; `00_scope.md` R7, R9): slices and zero extension between
codewords and bytes, and the codeword latched for an executed codeword operation. -/

namespace Sys2Proof.Machine

/-- `cw[7:0]`, the byte of a literal (R95). -/
def litByte (cw : Code) : Byte := cw.setWidth 8

/-- `zext_12` of a literal's byte: the codeword whose operand it is (R95: "since `cw <= 0xFF` it equals `cw`"). -/
def litCode (b : Byte) : Code := b.setWidth 12

/-- `CW` holds the codeword being executed. In a step `BR.READ` has put it there already (R160); an operation executed
by itself puts its own operand there. -/
def latch (cw : Code) (s : State) : State := { s with cw := cw }

/-- `STK`, `SP` take new contents (R32). -/
def withStack (l : List Byte) (s : State) : State := { s with stk := l }

/-- `C <- b` (R29). -/
def withFirst (b : Byte) (s : State) : State := { s with c := b }

/-- `PW <- k` (R24). -/
def withPrevious (k : Code) (s : State) : State := { s with pw := k }

/-- `PHASE <- p` (R27, R11). -/
def withPhase (p : Phase) (s : State) : State := { s with phase := p }

/-- `CW <- cw; BITPOS <- BITPOS + W`, the only way the cursor ever changes (R25, R120). -/
def consume (cw : Code) (s : State) : State := { s with cw := cw, bitpos := s.bitpos + s.w.bits }

/-- The returned value of an operation executed by itself (log entry 6). -/
def withResult (r : OpResult) (s : State) : State := { s with result := r }

end Sys2Proof.Machine
end

