-- ==== Sys2Proof/Machine/Ops.lean ====
section
/-! DEFINITION. The named operations that the meanings share: the result of an operation, fault entry
(`60_exceptions.md` R221), the accesses to the two memories (`20_memory.md` R68, R69) and the end of a step
(`10_state.md` R29). An `assert` of the spec is no run-time check (R11): an operation executed by itself where its
caller's condition does not hold runs its statements all the same (log entry 15). -/

namespace Sys2Proof.Machine

/-- How a component operation ends: with a value and a state; with a fault raised and entered (R221), after which the
statements that follow are not executed (R11); or with a stop of the model. -/
inductive Res (α : Type) where
  | ok (a : α) (s : State)
  | raised (s : State)
  | fault (f : Fault)
  | refused (r : Refusal)
  deriving Repr

/-- The statements after an operation: they run only where it ended with a value (R11). -/
def Res.bind {α β : Type} (r : Res α) (k : α → State → Res β) : Res β :=
  match r with
  | .ok a s => k a s
  | .raised s => .raised s
  | .fault f => .fault f
  | .refused q => .refused q

/-- The outcome of an operation executed by itself. A raised fault is a next state: fault entry has been performed. -/
def Res.outcome {α : Type} (r : Res α) : Host.Outcome State Fault Refusal :=
  match r with
  | .ok _ s => .next s
  | .raised s => .next s
  | .fault f => .fault f
  | .refused q => .refused q

/-- The outcome of an operation that returns a value: the value stands in `result` (log entry 6). -/
def Res.outcomeWith {α : Type} (r : Res α) (f : α → OpResult) : Host.Outcome State Fault Refusal :=
  match r with
  | .ok a s => .next (withResult (f a) s)
  | .raised s => .next s
  | .fault f => .fault f
  | .refused q => .refused q

/-- Apply a function to the next state of an outcome. -/
def onNext (f : State → State) (o : Host.Outcome State Fault Refusal) : Host.Outcome State Fault Refusal :=
  match o with
  | .next s => .next (f s)
  | .fault r => .fault r
  | .refused r => .refused r

/-! ## Taking a fault -/

/-- Fault entry (R221): `ERR_KIND <- kind; ERR_CAUSE <- cause; PHASE <- FAULT`, and nothing else. Nothing is saved and
there is no vector. There is no return from it (R222); only `START` leaves `FAULT`. -/
def takeFault (kind : ErrKind) (cause : ErrCause) (s : State) : State :=
  { s with errKind := kind, errCause := cause, phase := .fault }

/-- `raise Fault(kind, cause)` (R11, R221). -/
def raise {α : Type} (kind : ErrKind) (cause : ErrCause) (s : State) : Res α := .raised (takeFault kind cause s)

/-! ## The memories -/

/-- `SrcByte(a)`: the byte of `SRC` below `SRC_LEN`, and 0x00 without any access from there on (R68). A byte the host
never placed has no value (log entry 5). -/
def srcByte (s : State) (a : Nat) : Option Byte := if a < s.srcLen then s.src.read a else some 0#8

/-- `MemWrite(DST, WR, 1, v)` and `WR <- WR + 1` (R69, R180): the one way `DST` and `WR` change in a run. -/
def putByte (v : Byte) (s : State) : State := { s with dst := s.dst.write s.wr v, wr := s.wr + 1 }

/-! ## Between steps -/

/-- `CW` and `C` carry nothing from one step to the next: while another step follows, they are unspecified (R29), so
each takes a free value. In `DONE` and `FAULT` all registers keep their values (R171, R216). The two whole steps,
`Machine.step` and `STEP` (`execStep`), end with this; every other operation is a part of a step, within which both hold
what its statements wrote (R29). Log entry 2. -/
def endStep (s : State) : State :=
  if s.phase.isRunning then
    { s with cw := Config.freeCode s.draws, c := Config.freeByte s.draws, draws := s.draws + 1 }
  else s

end Sys2Proof.Machine
end

