-- ==== Sys2Proof/Machine/BitReader.lean ====
section
/-! DEFINITION. The BitReader (`40_bitreader.md`): `BR.READ`. -/

namespace Sys2Proof.Machine

/-- One byte of the window, or the model's stop where the host never placed it. -/
def fetchByte (a : Nat) (s : State) : Res Byte :=
  match srcByte s a with
  | some b => .ok b s
  | none => .fault (.sourceByteUnwritten a)

/-- `BR_READ()` (R120): the admission test comes before any byte is fetched (R122); three bytes are fetched whatever
the width (R121). -/
def brRead (s : State) : Res Code :=
  if 8 * s.srcLen < s.bitpos + s.w.bits then raise .bufferOverrun .sourceExhausted s
  else
    (fetchByte (s.bitpos / 8) s).bind fun b0 s =>
    (fetchByte (s.bitpos / 8 + 1) s).bind fun b1 s =>
    (fetchByte (s.bitpos / 8 + 2) s).bind fun b2 s =>
    let cw := codewordAt (windowOf b0 b1 b2) (s.bitpos % 8) s.w
    .ok cw (consume cw s)

/-- `BR.READ` (R120). -/
def execBrRead (s : State) : Host.Outcome State Fault Refusal := (brRead s).outcome

end Sys2Proof.Machine
end

