-- ==== Sys2Proof/Machine/Dictionary.lean ====
section
/-! DEFINITION. The Dictionary (`41_dictionary.md`): `DICT.RESET`, `DICT.ADD`, `DICT.RESOLVE`. -/

namespace Sys2Proof.Machine

/-- `DICT_RESET()` (R130): `N <- 0x102`; the storage is not touched. -/
def dictReset (s : State) : State := { s with n := Config.firstFree }

/-- The element `(p, b)` at `N`, and `N` one higher (R131). -/
def addEntry (p : Code) (b : Byte) (s : State) : State :=
  { s with dict := Store.set s.dict s.n { pfx := p, byte := b }, n := s.n + 1 }

/-- `DICT_ADD(p, b)` (R131, R132). -/
def dictAdd (p : Code) (b : Byte) (s : State) : Res Nat :=
  if s.cfg.dictLimit ≤ s.n then raise .internalLimitExceeded .dictFull s
  else .ok s.n (addEntry p b s)

/-- The element at an index: the one written by the last add at that index, or the free value of an element no add has
written since `START` (R31, R39; log entry 3). -/
def dictRead (s : State) (i : Nat) : DictEntry :=
  (Store.get? s.dict i).getD { pfx := Config.freePrefix s.tableSeed i, byte := Config.freeTrailing s.tableSeed i }

/-- `DICT_RESOLVE(k)` (R133), which has no meaning outside `0x102 <= k < N` (R134, D21). -/
def dictResolve (k : Code) (s : State) : Res DictEntry :=
  if Config.firstFree ≤ k.toNat ∧ k.toNat < s.n then .ok (dictRead s k.toNat) s
  else .refused (.resolveOutsideContract k)

/-- `DICT.RESET` (R130). -/
def execDictReset (s : State) : Host.Outcome State Fault Refusal := .next (dictReset s)

/-- `DICT.ADD` (R131). -/
def execDictAdd (p : Code) (b : Byte) (s : State) : Host.Outcome State Fault Refusal :=
  (dictAdd p b s).outcomeWith .assigned

/-- `DICT.RESOLVE` (R133). -/
def execDictResolve (k : Code) (s : State) : Host.Outcome State Fault Refusal :=
  (dictResolve k s).outcomeWith .entry

end Sys2Proof.Machine
end

