-- ==== Sys2Proof/Machine/Output.lean ====
section
/-! DEFINITION. The output primitive `EMIT` (`44_decoder_data.md` R180). -/

namespace Sys2Proof.Machine

/-- `EMIT(b)` (R180): the bound is checked for each byte, before the write. -/
def emit (b : Byte) (s : State) : Res Unit :=
  if s.dstCap ≤ s.wr then raise .bufferOverrun .destFull s
  else .ok () (putByte b s)

/-- `EMIT` (R180). -/
def execEmit (b : Byte) (s : State) : Host.Outcome State Fault Refusal := (emit b s).outcome

end Sys2Proof.Machine
end

