-- ==== Sys2Proof/Machine/ExpansionStack.lean ====
section
/-! DEFINITION. The ExpansionStack (`42_expansion_stack.md`): `STK.PUSH`, `STK.POP`, `STK.IS_EMPTY`, `STK.TOP`, and the
procedures `EXPAND` and `FLUSH`. -/

namespace Sys2Proof.Machine

/-- `STK_PUSH(b)` (R140, R144). -/
def stkPush (b : Byte) (s : State) : Res Unit :=
  if s.cfg.stackDepth ≤ s.sp then raise .internalLimitExceeded .stackFull s
  else .ok () (withStack (b :: s.stk) s)

/-- `STK_POP()` (R141); no meaning on an empty stack (R153). -/
def stkPop (s : State) : Res Byte :=
  match s.stk with
  | [] => .refused .popOfEmptyStack
  | b :: rest => .ok b (withStack rest s)

/-- `STK_IS_EMPTY()` (R142). -/
def stkIsEmpty (s : State) : Bool := decide (s.sp = 0)

/-- `STK_TOP()` (R143); no meaning on an empty stack (R151). -/
def stkTop (s : State) : Res Byte :=
  match s.stk with
  | [] => .refused .topOfEmptyStack
  | b :: _ => .ok b s

/-- The chain walk of `EXPAND` (R145) from a chain element `k`, which must be below `bound`: `N` for the first element,
and the element it is the prefix of for every later one (D21, U8: a control code, an index not below `N` or a
non-descending prefix is `CHAIN_INCONSISTENT`; log entry 8). The first argument bounds the length of the walk. -/
def chainWalk : Nat → Nat → Code → State → Res Unit
  | 0, _, _, s => raise .corruptStream .chainInconsistent s
  | fuel + 1, bound, k, s =>
    if Config.firstFree ≤ k.toNat then
      if bound ≤ k.toNat then raise .corruptStream .chainInconsistent s
      else (stkPush (dictRead s k.toNat).byte s).bind fun _ s' => chainWalk fuel k.toNat (dictRead s k.toNat).pfx s'
    else if 0x100 ≤ k.toNat then raise .corruptStream .chainInconsistent s
    else stkPush (litByte k) s

/-- `EXPAND(k)` (R145). Each element of a chain is below the one before it, so `k + 1` elements are enough. -/
def expand (k : Code) (s : State) : Res Unit := chainWalk (k.toNat + 1) s.n k s

/-- Pop and emit the bytes listed, top first (R146). -/
def flushBytes : List Byte → State → Res Unit
  | [], s => .ok () (withStack [] s)
  | b :: rest, s => (emit b (withStack rest s)).bind fun _ s' => flushBytes rest s'

/-- `FLUSH()` (R146): pop and emit until the stack is empty; a byte whose emission faults has been popped. -/
def flush (s : State) : Res Unit := flushBytes s.stk s

/-- `STK.PUSH` (R140). -/
def execStkPush (b : Byte) (s : State) : Host.Outcome State Fault Refusal := (stkPush b s).outcome

/-- `STK.POP` (R141). -/
def execStkPop (s : State) : Host.Outcome State Fault Refusal := (stkPop s).outcomeWith .byte

/-- `STK.IS_EMPTY` (R142). -/
def execStkIsEmpty (s : State) : Host.Outcome State Fault Refusal := .next (withResult (.truth (stkIsEmpty s)) s)

/-- `STK.TOP` (R143). -/
def execStkTop (s : State) : Host.Outcome State Fault Refusal := (stkTop s).outcomeWith .byte

/-- `EXPAND` (R145). -/
def execExpand (k : Code) (s : State) : Host.Outcome State Fault Refusal := (expand k s).outcome

/-- `FLUSH` (R146). -/
def execFlush (s : State) : Host.Outcome State Fault Refusal := (flush s).outcome

end Sys2Proof.Machine
end

