-- ==== Sys2Proof/Machine/Grow.lean ====
section
/-! DEFINITION. The codeword-width grow engine (`45_width_grow.md`): `GROW`. -/

namespace Sys2Proof.Machine

/-- `GROW()` (R195): if `N >= D` and `W < 12` then `W <- W + 1` and `D <- 2 * D`. -/
def growOnce (s : State) : State :=
  if s.d ≤ s.n ∧ s.w ≠ .w12 then { s with w := widen s.w, d := 2 * s.d } else s

/-- `GROW` (R195). -/
def execGrow (s : State) : Host.Outcome State Fault Refusal := .next (growOnce s)

end Sys2Proof.Machine
end

