-- ==== Sys2Proof/Machine/Data.lean ====
section
/-! DEFINITION. Data codewords in `RUNNING` (`44_decoder_data.md`): `DATA`, `TAIL`, and the known-code, KwKwK and
invalid cases. -/

namespace Sys2Proof.Machine

/-- `TAIL()` (R185): the add uses the old `PW`, `GROW` tests the incremented `N`. -/
def tail (s : State) : Res Unit :=
  (dictAdd s.pw s.c s).bind fun _ s1 => .ok () (withPrevious s1.cw (growOnce s1))

/-- Expand a codeword, take `C` from the top of the stack, and flush (R182, R183, R184: the first three statements). -/
def emitString (k : Code) (s : State) : Res Unit :=
  (expand k s).bind fun _ s1 =>
  (stkTop s1).bind fun b s2 =>
  flush (withFirst b s2)

/-- The branch `CW < N` (R182, R183). -/
def knownCode (s : State) : Res Unit := (emitString s.cw s).bind fun _ s1 => tail s1

/-- The branch `CW == N` (R184): the string comes from `PW`, and `C` is emitted once more. -/
def kwkwkCode (s : State) : Res Unit :=
  (emitString s.pw s).bind fun _ s1 =>
  (emit s1.c s1).bind fun _ s2 =>
  tail s2

/-- The branch `CW > N` (R186), before any expansion, output or add. -/
def invalidCode (s : State) : Res Unit := raise .corruptStream .codeBeyondNextFree s

/-- `DATA()` (R181). -/
def dataCodeword (s : State) : Res Unit :=
  if s.n < s.cw.toNat then invalidCode s
  else if s.cw.toNat < s.n then knownCode s
  else kwkwkCode s

/-- `DATA` (R181). -/
def execData (s : State) : Host.Outcome State Fault Refusal := (dataCodeword s).outcome

/-- `TAIL` (R185). -/
def execTail (s : State) : Host.Outcome State Fault Refusal := (tail s).outcome

end Sys2Proof.Machine
end

