-- ==== Sys2Proof/Machine/Control.lean ====
section
/-! DEFINITION. Decoder control (`43_decoder_control.md`): the reset and end codes, the first literal, `STEP`, and the
codewords of the stream in each phase (`30_encoding.md` R97). -/

namespace Sys2Proof.Machine

/-- `DO_RESET()` (R164). `PW` becomes unspecified: it takes a free value (log entry 2). `BITPOS` and `WR` go on. -/
def doReset (s : State) : State :=
  withPhase .postReset (dictReset
    { s with w := .w9, d := Config.dInit, pw := Config.freeCode s.draws, draws := s.draws + 1 })

/-- `PHASE <- DONE` (R168, R170); no comparison of `WR` with `DST_CAP`. -/
def finish (s : State) : State := withPhase .done s

/-- `FIRST_LITERAL()` (R167). -/
def firstLiteral (s : State) : Res Unit :=
  (emit (litByte s.cw) s).bind fun _ s1 => .ok () (withPhase .running (withPrevious s1.cw s1))

/-- A first codeword other than 0x100 (R163). -/
def firstNotReset (s : State) : Res Unit := raise .invalidContainer .firstNotReset s

/-- A composite code directly after a reset code (R169). -/
def nonliteralAfterReset (s : State) : Res Unit := raise .corruptStream .nonliteralAfterReset s

/-- No step is enabled in `IDLE`, `DONE` and `FAULT` (R27). -/
def notEnabled {α : Type} (s : State) : Res α := .fault (.noStepEnabled s.phase)

/-- The dispatch of `STEP()` on `PHASE` and `CW` (R160), as its pseudocode has it. -/
def dispatchStep (s : State) : Res Unit :=
  match s.phase with
  | .awaitingReset =>
    if s.cw = Config.codeReset then .ok () (doReset s) else firstNotReset s
  | .postReset =>
    if s.cw.toNat ≤ 0xFF then firstLiteral s
    else if s.cw = Config.codeReset then .ok () (doReset s)
    else if s.cw = Config.codeEnd then .ok () (finish s)
    else nonliteralAfterReset s
  | .running =>
    if s.cw = Config.codeReset then .ok () (doReset s)
    else if s.cw = Config.codeEnd then .ok () (finish s)
    else dataCodeword s
  | .idle => notEnabled s
  | .done => notEnabled s
  | .fault => notEnabled s

/-- `STEP()` (R160). -/
def stepOnce (s : State) : Res Unit :=
  if s.phase.isRunning then (brRead s).bind fun _ s1 => dispatchStep s1 else notEnabled s

/-! ## The codewords in each phase -/

/-- `RESET` (R97): R163, R166, R165. -/
def resetCodeword (s : State) : Res Unit :=
  match s.phase with
  | .awaitingReset => .ok () (doReset s)
  | .postReset => .ok () (doReset s)
  | .running => .ok () (doReset s)
  | .idle => notEnabled s
  | .done => notEnabled s
  | .fault => notEnabled s

/-- `END` (R97): R163, R168, R170. -/
def endCodeword (s : State) : Res Unit :=
  match s.phase with
  | .awaitingReset => firstNotReset s
  | .postReset => .ok () (finish s)
  | .running => .ok () (finish s)
  | .idle => notEnabled s
  | .done => notEnabled s
  | .fault => notEnabled s

/-- `LIT` (R97): R163, R167, R182. -/
def litCodeword (s : State) : Res Unit :=
  match s.phase with
  | .awaitingReset => firstNotReset s
  | .postReset => firstLiteral s
  | .running => dataCodeword s
  | .idle => notEnabled s
  | .done => notEnabled s
  | .fault => notEnabled s

/-- A codeword of `CODE`'s bits (R97): R163, R169, and in `RUNNING` the operation given. -/
def codeCodeword (inRunning : State → Res Unit) (s : State) : Res Unit :=
  match s.phase with
  | .awaitingReset => firstNotReset s
  | .postReset => nonliteralAfterReset s
  | .running => inRunning s
  | .idle => notEnabled s
  | .done => notEnabled s
  | .fault => notEnabled s

/-- What the words of `KWKWK` do in `RUNNING`: R184 where `CW == N`; where the row's condition does not hold the words
are `CODE`'s (R97; log entry 9). -/
def kwkwkInRunning (s : State) : Res Unit := if s.cw.toNat = s.n then kwkwkCode s else dataCodeword s

/-- What the words of `INVALID` do in `RUNNING`: R186 where `CW > N`; otherwise the words are `CODE`'s (R97; log
entry 9). -/
def invalidInRunning (s : State) : Res Unit := if s.n < s.cw.toNat then invalidCode s else dataCodeword s

/-- `RESET` (R164; R163, R165, R166). The width has done its work in `BR.READ`. -/
def execReset (_w : Width) (s : State) : Host.Outcome State Fault Refusal :=
  (resetCodeword (latch Config.codeReset s)).outcome

/-- `END` (R170; R163, R168). -/
def execEndStream (_w : Width) (s : State) : Host.Outcome State Fault Refusal :=
  (endCodeword (latch Config.codeEnd s)).outcome

/-- `LIT` (R182; R163, R167). -/
def execLit (_w : Width) (b : Byte) (s : State) : Host.Outcome State Fault Refusal :=
  (litCodeword (latch (litCode b) s)).outcome

/-- `CODE` (R183; R163, R169; the dispatch on `N` is R181). -/
def execCode (_w : Width) (cw : Code) (s : State) : Host.Outcome State Fault Refusal :=
  (codeCodeword dataCodeword (latch cw s)).outcome

/-- `KWKWK` (R184). -/
def execKwkwk (_w : Width) (cw : Code) (s : State) : Host.Outcome State Fault Refusal :=
  (codeCodeword kwkwkInRunning (latch cw s)).outcome

/-- `INVALID` (R186). -/
def execInvalid (_w : Width) (cw : Code) (s : State) : Host.Outcome State Fault Refusal :=
  (codeCodeword invalidInRunning (latch cw s)).outcome

/-- `DO_RESET` (R164). -/
def execDoReset (s : State) : Host.Outcome State Fault Refusal := .next (doReset s)

/-- `FIRST_LITERAL` (R167). -/
def execFirstLiteral (s : State) : Host.Outcome State Fault Refusal := (firstLiteral s).outcome

/-- `STEP` (R160): one codeword is consumed with all its effects, and the step is over (R14), so `CW` and `C` become
unspecified where another step follows (`endStep`, R29; log entry 2). -/
def execStep (s : State) : Host.Outcome State Fault Refusal := onNext endStep (stepOnce s).outcome

end Sys2Proof.Machine
end

