-- ==== Sys2Proof/Machine/HostInterface.lean ====
section
/-! DEFINITION. The host's side (`70_reset_and_hazards.md`): `START` (R241), the host's writes (R224), the container
(`20_memory.md` R70, R245 to R247) and the host's reading of a result (R219, R248 to R250). -/

namespace Sys2Proof.Machine

/-- `START()` (R241). `PW`, `CW`, `C` and every dictionary element become unspecified: free values (log entries 2 and
3). Nothing of the block's own state survives (R37). -/
def startInvocation (s : State) : State :=
  { s with
    w := .w9, d := Config.dInit, n := Config.firstFree, bitpos := 0, wr := 0, stk := [],
    errKind := .noError, errCause := .noError, phase := .awaitingReset,
    pw := Config.freeCode s.draws, cw := Config.freeCode (s.draws + 1), c := Config.freeByte s.draws,
    dict := [], tableSeed := s.draws, draws := s.draws + 2, result := .nothing }

/-- `START` (R241): accepted in `IDLE`, `DONE` and `FAULT`; no meaning in a running phase (R255). -/
def startCommand (s : State) : Res Unit :=
  if s.phase.isRunning then .refused .startWhileRunning else .ok () (startInvocation s)

/-- `START` (R241). -/
def execStart (s : State) : Host.Outcome State Fault Refusal := (startCommand s).outcome

/-- One action of the host while the block is not running (R224, R33). The bounds are those of the registers that give
the buffers' lengths (R33; log entry 14). -/
def hostAction (a : HostAction) (s : State) : Res Unit :=
  match a with
  | .writeSrc i b =>
    if i < s.cfg.srcLenMax then .ok () { s with src := s.src.write i b } else .refused (.hostAddressOutside i)
  | .writeDst i b =>
    if i < Config.dstCapMax then .ok () { s with dst := s.dst.write i b } else .refused (.hostAddressOutside i)
  | .setSrcLen n => if n ≤ s.cfg.srcLenMax then .ok () { s with srcLen := n } else .refused (.srcLenTooLarge n)
  | .setDstCap n => if n ≤ Config.dstCapMax then .ok () { s with dstCap := n } else .refused (.dstCapTooLarge n)
  | .start => startCommand s

/-- The host's turn, when no step of the block is enabled: its next action; with none the machine stands still (R27,
R171, R222; log entry 10). -/
def hostTurn (s : State) : Res Unit :=
  match s.hostQueue with
  | [] => .fault (.noStepEnabled s.phase)
  | a :: rest => hostAction a { s with hostQueue := rest }

/-! ## The container -/

/-- Why the host rejects a file before the core is started; each is `InvalidContainer` (R219 (a), R245). -/
inductive ContainerError where
  | shorterThanSix
  | sizeAbove24Bits
  | firstCodewordNotReset
  deriving DecidableEq, Repr

/-- The kind of every rejection: `InvalidContainer` (R219 (a), R245). The spec gives it no cause. -/
def ContainerError.kind : ContainerError → ErrKind
  | .shorterThanSix => .invalidContainer
  | .sizeAbove24Bits => .invalidContainer
  | .firstCodewordNotReset => .invalidContainer

/-- The host's checks on a container file (R245). -/
def containerCheck (file : List Byte) : Option ContainerError :=
  if file.length < 6 then some .shorterThanSix
  else if byteAt file 3 ≠ 0x00#8 then some .sizeAbove24Bits
  else if byteAt file 4 = 0x00#8 ∧ byteAt file 5 &&& 0x01#8 = 0x01#8 then none
  else some .firstCodewordNotReset

/-- `DST_CAP`: the little-endian length header (R70, R247). -/
def containerSize (file : List Byte) : Nat :=
  (byteAt file 0).toNat + 2 ^ 8 * (byteAt file 1).toNat + 2 ^ 16 * (byteAt file 2).toNat
    + 2 ^ 24 * (byteAt file 3).toNat

/-- The host's writes of consecutive source bytes (R246). -/
def sourceWrites : Nat → List Byte → List HostAction
  | _, [] => []
  | a, b :: rest => .writeSrc a b :: sourceWrites (a + 1) rest

/-- The host's duties 1 to 4 for one container file (R244): check, set up the source and the destination capacity, and
start. -/
def containerActions (file : List Byte) : Except ContainerError (List HostAction) :=
  match containerCheck file with
  | some e => .error e
  | none =>
    .ok ([.setSrcLen (file.length - 4), .setDstCap (containerSize file)] ++ sourceWrites 0 (file.drop 4) ++ [.start])

/-- What the host makes of a container file and of the end of its invocation (R248, R249, R250; R219: a rejected file is
`InvalidContainer`, a short write is `BufferOverrun`, `SHORT_WRITE`). -/
inductive Verdict where
  /-- No terminal phase has been reached. -/
  | pending
  | success (bytes : Nat)
  | failed (kind : ErrKind) (cause : ErrCause)
  /-- The file failed a check, and the core was not started (R219 (a), R245). -/
  | rejected (kind : ErrKind)
  deriving DecidableEq, Repr

/-- The host's verdict (R248 to R250). -/
def hostVerdict (s : State) : Verdict :=
  match s.phase with
  | .done => if s.wr = s.dstCap then .success s.wr else .failed .bufferOverrun .shortWrite
  | .fault => .failed s.errKind s.errCause
  | .idle => .pending
  | .awaitingReset => .pending
  | .postReset => .pending
  | .running => .pending

/-- The host's verdict on a container file (R244): a file that fails a check is rejected whatever the block's state, and
otherwise the state in which its invocation has ended decides. -/
def fileVerdict (file : List Byte) (s : State) : Verdict :=
  match containerCheck file with
  | some e => .rejected e.kind
  | none => hostVerdict s

end Sys2Proof.Machine
end

