-- ==== Sys2Proof/Machine/Dispatch.lean ====
section
/-! DEFINITION. One arm per operation of `spec/opcode_table.json`. -/

namespace Sys2Proof.Machine

def exec (i : Instr) (s : State) : Host.Outcome State Fault Refusal :=
  match i with
  -- codewords of the stream
  | .reset w => Sys2Proof.Machine.execReset w s
  | .endStream w => Sys2Proof.Machine.execEndStream w s
  | .lit w b => Sys2Proof.Machine.execLit w b s
  | .code w cw => Sys2Proof.Machine.execCode w cw s
  | .kwkwk w cw => Sys2Proof.Machine.execKwkwk w cw s
  | .invalid w cw => Sys2Proof.Machine.execInvalid w cw s
  -- component operations
  | .brRead => Sys2Proof.Machine.execBrRead s
  | .dictReset => Sys2Proof.Machine.execDictReset s
  | .dictAdd p b => Sys2Proof.Machine.execDictAdd p b s
  | .dictResolve k => Sys2Proof.Machine.execDictResolve k s
  | .stkPush b => Sys2Proof.Machine.execStkPush b s
  | .stkPop => Sys2Proof.Machine.execStkPop s
  | .stkIsEmpty => Sys2Proof.Machine.execStkIsEmpty s
  | .stkTop => Sys2Proof.Machine.execStkTop s
  | .expand k => Sys2Proof.Machine.execExpand k s
  | .flush => Sys2Proof.Machine.execFlush s
  | .emit b => Sys2Proof.Machine.execEmit b s
  | .data => Sys2Proof.Machine.execData s
  | .tail => Sys2Proof.Machine.execTail s
  | .grow => Sys2Proof.Machine.execGrow s
  | .doReset => Sys2Proof.Machine.execDoReset s
  | .firstLiteral => Sys2Proof.Machine.execFirstLiteral s
  | .step => Sys2Proof.Machine.execStep s
  -- the host's command
  | .start => Sys2Proof.Machine.execStart s

end Sys2Proof.Machine
end

