-- ==== Sys2Proof/Machine/Step.lean ====
section
/-! DEFINITION. One step of the machine: in a running phase one codeword of the stream (`43_decoder_control.md` R160);
otherwise the host's next action (`10_state.md` R20). -/

namespace Sys2Proof.Machine

/-- Read a codeword, decode it, and execute it; then the step-local temporaries are forgotten (R29). A read that is not
admitted ends the step in `FAULT` (R122). -/
def stepCodeword (s : State) : Host.Outcome State Fault Refusal :=
  match brRead s with
  | .ok cw s1 => onNext endStep (exec (classify s.w cw) s1)
  | .raised s1 => .next s1
  | .fault f => .fault f
  | .refused r => .refused r

/-- One step. -/
def step (s : State) : Host.Outcome State Fault Refusal :=
  if s.phase.isRunning then stepCodeword s else (hostTurn s).outcome

/-- The state with a word of the opcode table placed where `step` reads its next codeword: the stream's first bytes,
`SRC_LEN` covering them, the cursor at 0, and the word's width in `W` (with its ceiling in `D`, R22). A step is enabled
only in a running phase, so a phase that is not running becomes `RUNNING`, where every row is executed by the rule the
table names (R96). Log entry 11. -/
def State.withFetchWord (s : State) (nbits w : Nat) : State :=
  let wd := (tableWidth nbits w).getD .w9
  { s with
    src := [(0, BitVec.ofNat 8 w), (1, BitVec.ofNat 8 (w / 256))], srcLen := 2, bitpos := 0,
    w := wd, d := 2 ^ wd.bits, phase := if s.phase.isRunning then s.phase else .running }

end Sys2Proof.Machine
end

