-- ==== Sys2Proof/Safety.lean ====
section
/-! DEFINITION. The terms statements about the block are written in: bits of the stream (`20_memory.md` R65), the
string of a codeword (`42_expansion_stack.md` R147), the writes of an output string, the state a data codeword leaves
(`44_decoder_data.md` R185), and the invariants of `10_state.md` R30. -/

namespace Sys2Proof.Machine

/-! ## The stream and the strings -/

/-- Stream bit number `p`: bit `p mod 8` of byte `SRC[p div 8]` (R65). -/
def streamBit (s : State) (p : Nat) : Bool := ((srcByte s (p / 8)).getD 0#8).getLsbD (p % 8)

/-- The host has placed every byte of the source (R39: "as the host wrote them"). -/
def SourcePlaced (s : State) : Prop := ∀ a, a < s.srcLen → ∃ b, s.src.read a = some b

/-- The codeword at the cursor lies wholly inside the source (R122). -/
abbrev Admitted (s : State) : Prop := s.bitpos + s.w.bits ≤ 8 * s.srcLen

/-- The string of a codeword, by the elements of its prefix chain (R147); the first argument bounds the chain. -/
def chainString (s : State) : Nat → Code → List Byte
  | 0, _ => []
  | fuel + 1, k =>
    if Config.firstFree ≤ k.toNat then
      chainString s fuel (dictRead s k.toNat).pfx ++ [(dictRead s k.toNat).byte]
    else [litByte k]

/-- `str(k)` (R147). -/
def str (s : State) (k : Code) : List Byte := chainString s (k.toNat + 1) k

/-- `first(k)` (R147). -/
def firstByte (s : State) (k : Code) : Byte := (str s k).headD 0#8

/-- A codeword that has a string: a literal, or a live composite code (R145, R147). -/
def HasString (s : State) (k : Code) : Prop := k.toNat ≤ 0xFF ∨ (Config.firstFree ≤ k.toNat ∧ k.toNat < s.n)

/-- The last `m` bytes of a string: what has been pushed of it after `m` pushes (R145 pushes the last byte first). -/
def lastBytes (m : Nat) (l : List Byte) : List Byte := l.drop (l.length - m)

/-- Bytes written at consecutive addresses of a memory. -/
def writeString : Memory → Nat → List Byte → Memory
  | m, _, [] => m
  | m, a, b :: rest => writeString (m.write a b) (a + 1) rest

/-- What the common end of a data codeword leaves (R185) when the add finds room: the new element `(PW, C)` at `N`, `N`
one higher, `W` and `D` grown by R195 on the new `N`, and `PW` the codeword. -/
def afterTail (s : State) : State :=
  { s with
    dict := Store.set s.dict s.n { pfx := s.pw, byte := s.c }, n := s.n + 1,
    w := if s.d ≤ s.n + 1 ∧ s.w ≠ .w12 then widen s.w else s.w,
    d := if s.d ≤ s.n + 1 ∧ s.w ≠ .w12 then 2 * s.d else s.d,
    pw := s.cw }

/-- What writing an output string leaves (R146, R180) when it fits. -/
def afterOutput (bytes : List Byte) (s : State) : State :=
  { s with dst := writeString s.dst s.wr bytes, wr := s.wr + bytes.length }

/-! ## The invariants of R30 -/

/-- The live part of the dictionary (R30 (vii)): every element a codeword can name has been added, its prefix is below
its own index and no control code. -/
def LiveChain (s : State) : Prop :=
  ∀ i, Config.firstFree ≤ i → i < s.n → i ≤ 0xFFF →
    ∃ e, Store.get? s.dict i = some e ∧ e.pfx.toNat < i ∧ Code.isControl e.pfx = false

/-- R30 (i) to (vii), which the spec proves between steps of an invocation. -/
structure RunInv (s : State) : Prop where
  ceiling : s.d = 2 ^ s.w.bits
  nextFreeLow : Config.firstFree ≤ s.n
  nextFreeHigh : s.n ≤ s.cfg.dictLimit
  belowCeiling : s.w ≠ .w12 → s.n < s.d
  aboveHalf : s.w ≠ .w9 → s.d / 2 ≤ s.n
  cursor : s.bitpos ≤ 8 * s.srcLen
  written : s.wr ≤ s.dstCap
  stackEmpty : s.stk = []
  previous : s.phase = .running → s.pw.toNat < s.n ∧ Code.isControl s.pw = false
  chain : LiveChain s
  fresh : s.phase ≠ .running → s.n = Config.firstFree ∧ s.w = .w9

/-- The invariant of the machine: valid parameters, canonical stores, a fault record exactly in `FAULT` (R30 (viii))
with a cause of its kind, and R30 (i) to (vii) while an invocation runs. (After a terminal phase the host may change
`SRC_LEN` and `DST_CAP`, and a fault may leave bytes on the stack, R146; log entry 12.) -/
structure Inv (s : State) : Prop where
  parameters : s.cfg.Valid
  sourceCanonical : s.src.wf = true
  destCanonical : s.dst.wf = true
  dictCanonical : s.dict.wf = true
  faultRecord : s.errKind ≠ .noError ↔ s.phase = .fault
  faultCause : s.errCause.kind = s.errKind
  run : s.phase.isRunning = true → RunInv s

end Sys2Proof.Machine
end

