-- ==== Sys2Proof/Certificates/Slice0/Obligations.lean ====
section
/-! DEFINITION. The statements about the block, for the provers. Each docstring names the rule of the spec the statement
formalises. A register's unspecified value after an operation stands in a statement as an existential: nothing is said
about it. -/

open Sys2Proof Sys2Proof.Machine

/-! ## Encoding -/

/-- R94, R96: words written out from the patterns of R94 decode to the operations they stand for, one of each class at
each width where the pattern differs. -/
def Obligations.SpecWordsDecode : Prop :=
  decode .w9 0b100000000#12 = .ok (.reset .w9) ∧ decode .w12 0b000100000000#12 = .ok (.reset .w12) ∧
  decode .w9 0b100000001#12 = .ok (.endStream .w9) ∧ decode .w12 0b000100000001#12 = .ok (.endStream .w12) ∧
  decode .w9 0b001000001#12 = .ok (.lit .w9 0x41#8) ∧ decode .w12 0b000011111111#12 = .ok (.lit .w12 0xFF#8) ∧
  decode .w9 0b100000010#12 = .ok (.code .w9 0x102#12) ∧ decode .w10 0b1000000000#12 = .ok (.code .w10 0x200#12) ∧
  decode .w12 0b111111111111#12 = .ok (.code .w12 0xFFF#12)

/-- R96: decoding accepts exactly the values of the width, gives the class of the first row of the opcode table that the
codeword matches, a well-formed operation, and one whose encoding is the codeword (no bit is dropped). -/
def Obligations.DecodeFollowsOpcodeTable : Prop :=
  ∀ (w : Width) (cw : Code),
    (cw.toNat < 2 ^ w.bits → ∃ i, decode w cw = .ok i ∧ i.codewordClass = firstMatch (opcodeRows w) cw ∧
      i.wellFormed = true ∧ encode i = some ⟨w, cw⟩) ∧
    (2 ^ w.bits ≤ cw.toNat → decode w cw = .error (.codewordTooWide w cw))

/-- R94, R95, R97: for every well-formed operation that has a codeword, decoding its codeword gives the operation back;
for the alias rows `KWKWK` and `INVALID` it gives the `CODE` whose words they share. -/
def Obligations.EncodeThenDecode : Prop :=
  ∀ (i : Instr) (c : Codeword), i.wellFormed = true → encode i = some c →
    decode c.width c.value = .ok i.staticName

/-- R105, R125: reading the packer's output at the position and width of any of its codewords returns that codeword, and
moves the cursor to the next. -/
def Obligations.PackThenRead : Prop :=
  ∀ (before after : List Codeword) (c : Codeword) (s : State),
    (∀ x ∈ before ++ c :: after, x.value.toNat < 2 ^ x.width.bits) →
    s.srcLen = (pack (before ++ c :: after)).length →
    (∀ a b, (pack (before ++ c :: after))[a]? = some b → s.src.read a = some b) →
    s.bitpos = totalBits before → s.w = c.width →
    exec .brRead s = .next { s with cw := c.value, bitpos := totalBits before + c.width.bits }

/-! ## The BitReader -/

/-- R120, R122, R125: `BR.READ`. An admitted read whose window bytes are placed completes: `CW` is the integer whose bit
`t` (for `0 <= t < W`) is stream bit `BITPOS + t`, its upper bits are zero, `BITPOS` advances by `W`, and nothing else
changes. A read that would pass the end of the source raises `Fault(BufferOverrun, SOURCE_EXHAUSTED)`; the cursor and
`CW` are not changed, nor is anything but the fault record and the phase. -/
def Obligations.BrReadOperation : Prop :=
  ∀ s : State,
    (s.bitpos + s.w.bits ≤ 8 * s.srcLen →
      (∀ a, s.bitpos / 8 ≤ a → a ≤ s.bitpos / 8 + 2 → srcByte s a ≠ none) →
      ∃ cw : Code, exec .brRead s = .next { s with cw := cw, bitpos := s.bitpos + s.w.bits } ∧
        ∀ t, cw.getLsbD t = (decide (t < s.w.bits) && streamBit s (s.bitpos + t))) ∧
    (8 * s.srcLen < s.bitpos + s.w.bits →
      exec .brRead s =
        .next { s with errKind := .bufferOverrun, errCause := .sourceExhausted, phase := .fault })

/-! ## The step -/

/-- R160, R120: where the codeword at the cursor lies inside the source, its window bytes are placed and it decodes to
`i`, a step in a running phase is `exec i` on the state with `CW` and the cursor moved on; after it the step-local
temporaries are forgotten (`endStep`, R29). -/
def Obligations.StepRunsDecodedCodeword : Prop :=
  ∀ (s : State) (b0 b1 b2 : Byte) (i : Instr), s.phase.isRunning = true → s.bitpos + s.w.bits ≤ 8 * s.srcLen →
    srcByte s (s.bitpos / 8) = some b0 → srcByte s (s.bitpos / 8 + 1) = some b1 →
    srcByte s (s.bitpos / 8 + 2) = some b2 →
    decode s.w (codewordAt (windowOf b0 b1 b2) (s.bitpos % 8) s.w) = .ok i →
    step s = onNext endStep (exec i
      { s with cw := codewordAt (windowOf b0 b1 b2) (s.bitpos % 8) s.w, bitpos := s.bitpos + s.w.bits })

/-- R160, R97: in every running phase, reading, decoding and executing a codeword is the pseudocode of `STEP`, which
dispatches on `PHASE` and on the value of `CW` without decoding. Both end the step, with the same free values in `CW`
and `C` (the model's form of R29's unspecified values, log entry 2). -/
def Obligations.DecodedStepIsStepPseudocode : Prop :=
  ∀ s : State, s.phase.isRunning = true → step s = exec .step s

/-- R160: `STEP` is total on its enabled phases, where the host has placed the source: either the read is not admitted,
and the step enters `FAULT`; or the codeword read decodes, and `STEP` completes as the decoded operation does, and ends
the step: `CW` and `C` become unspecified where another step follows (`endStep`, R29; the free values are the model's,
log entry 2). -/
def Obligations.StepTotalOnRunningPhases : Prop :=
  ∀ s : State, s.phase.isRunning = true → SourcePlaced s →
    (8 * s.srcLen < s.bitpos + s.w.bits →
      exec .step s = .next { s with errKind := .bufferOverrun, errCause := .sourceExhausted, phase := .fault }) ∧
    (s.bitpos + s.w.bits ≤ 8 * s.srcLen →
      ∃ (cw : Code) (i : Instr) (t : State), decode s.w cw = .ok i ∧ encode i = some ⟨s.w, cw⟩ ∧
        exec .brRead s = .next { s with cw := cw, bitpos := s.bitpos + s.w.bits } ∧
        exec i { s with cw := cw, bitpos := s.bitpos + s.w.bits } = .next t ∧ exec .step s = .next (endStep t))

/-- R161: the complete table of phase transitions: of a step of the core, by the codeword read, and of the host, whose
`START` alone changes the phase. That the host's next action is the head of the model's `hostQueue` is the model's
choice (log entry 10). -/
def Obligations.PhaseTransitionTable : Prop :=
  (∀ s t : State, s.phase.isRunning = true → step s = .next t →
    (8 * s.srcLen < s.bitpos + s.w.bits → t.phase = .fault ∧ t.errKind = .bufferOverrun) ∧
    (∀ cw s1, brRead s = .ok cw s1 →
      (s.phase = .awaitingReset →
        (cw = 0x100#12 → t.phase = .postReset) ∧
        (cw ≠ 0x100#12 → t.phase = .fault ∧ t.errKind = .invalidContainer)) ∧
      (s.phase = .postReset →
        (cw.toNat ≤ 0xFF → (s.wr < s.dstCap → t.phase = .running) ∧ (s.dstCap ≤ s.wr → t.phase = .fault)) ∧
        (cw = 0x100#12 → t.phase = .postReset) ∧
        (cw = 0x101#12 → t.phase = .done) ∧
        (0x102 ≤ cw.toNat → t.phase = .fault ∧ t.errKind = .corruptStream)) ∧
      (s.phase = .running →
        (cw = 0x100#12 → t.phase = .postReset) ∧
        (cw = 0x101#12 → t.phase = .done) ∧
        (cw ≠ 0x100#12 → cw ≠ 0x101#12 → t.phase = .running ∨ t.phase = .fault)))) ∧
  (∀ s t : State, s.phase = .idle ∨ s.phase = .done ∨ s.phase = .fault → step s = .next t →
    (s.hostQueue.head? = some .start → t.phase = .awaitingReset) ∧
    (s.hostQueue.head? ≠ some .start → t.phase = s.phase))

/-- R25: a step changes the cursor by exactly the width in force before the codeword's own effects, or, where the read
is not admitted, not at all. -/
def Obligations.CursorAdvancesByWidth : Prop :=
  ∀ s t : State, s.phase.isRunning = true → step s = .next t →
    (s.bitpos + s.w.bits ≤ 8 * s.srcLen → t.bitpos = s.bitpos + s.w.bits) ∧
    (8 * s.srcLen < s.bitpos + s.w.bits → t.bitpos = s.bitpos)

/-- R61, R33: a step of the core writes neither `SRC` nor `SRC_LEN` nor `DST_CAP`; nor does it touch the parameters, the
host's queue, the result latch and the table seed (the last three are the model's own fields). -/
def Obligations.StepKeepsSourceAndConfiguration : Prop :=
  ∀ s t : State, s.phase.isRunning = true → step s = .next t →
    t.src = s.src ∧ t.srcLen = s.srcLen ∧ t.dstCap = s.dstCap ∧ t.cfg = s.cfg ∧ t.hostQueue = s.hostQueue ∧
    t.result = s.result ∧ t.tableSeed = s.tableSeed

/-- R74: the writes of a step are at the indices from the old `WR` up to the new one, each of them, with no gap, and no
other byte of `DST` changes; `WR` never passes `DST_CAP` (R69). -/
def Obligations.DestinationWrittenInOrder : Prop :=
  ∀ s t : State, s.phase.isRunning = true → step s = .next t →
    s.wr ≤ t.wr ∧ (t.wr ≤ s.dstCap ∨ t.wr = s.wr) ∧
    (∀ a, s.wr ≤ a → a < t.wr → t.dst.read a ≠ none) ∧
    (∀ a, a < s.wr ∨ t.wr ≤ a → t.dst.read a = s.dst.read a)

/-- R68: "The core never reads storage outside `SRC[0 .. SRC_LEN-1]`": a step does not depend on what a memory holds at
or beyond `SRC_LEN`. -/
def Obligations.StepIgnoresBytesBeyondSource : Prop :=
  ∀ (s : State) (m : Memory), s.phase.isRunning = true → (∀ a, a < s.srcLen → m.read a = s.src.read a) →
    step { s with src := m } = onNext (fun t => { t with src := m }) (step s)

/-- R62: "The core never reads `DST`": with any other contents of `DST` a step does the same, writes the same bytes, and
differs in nothing but `DST`. -/
def Obligations.StepNeverReadsDestination : Prop :=
  ∀ (s : State) (m : Memory), s.phase.isRunning = true →
    (∀ t, step s = .next t → ∃ m', step { s with dst := m } = .next { t with dst := m' } ∧
      ∀ a, s.wr ≤ a → a < t.wr → m'.read a = t.dst.read a) ∧
    (∀ f, step s = .fault f → step { s with dst := m } = .fault f)

/-- R36: "no output byte and no fault depends on a stale element": a step from a dictionary with the same live elements
(indices from 0x102 up to `N`) differs in nothing but the dictionary, whose live elements agree again. -/
def Obligations.StaleEntriesUnobservable : Prop :=
  ∀ (s : State) (d : DictTable), s.phase.isRunning = true →
    (∀ i, 0x102 ≤ i → i < s.n → Store.get? d i = Store.get? s.dict i) →
    (∀ t, step s = .next t → ∃ d', step { s with dict := d } = .next { t with dict := d' } ∧
      ∀ i, 0x102 ≤ i → i < t.n → Store.get? d' i = Store.get? t.dict i) ∧
    (∀ f, step s = .fault f → step { s with dict := d } = .fault f)

/-- R24: in `AWAITING_RESET` and `POST_RESET` no rule reads `PW`: with any other value there a step does the same, and
differs at most in `PW`. -/
def Obligations.PreviousUnreadOutsideRunning : Prop :=
  ∀ (s : State) (v : Code), s.phase = .awaitingReset ∨ s.phase = .postReset →
    (∀ t, step s = .next t → ∃ v', step { s with pw := v } = .next { t with pw := v' } ∧
      (t.phase = .running → v' = t.pw)) ∧
    (∀ f, step s = .fault f → step { s with pw := v } = .fault f)

/-- R215, R219, R221, R231: a step that ends in `FAULT` records a cause of the table with its kind, never `SHORT_WRITE`,
which is the host's; a step that ends elsewhere leaves the record as it was. -/
def Obligations.FaultRecordNamesTheCause : Prop :=
  ∀ s t : State, s.phase.isRunning = true → step s = .next t →
    (t.phase = .fault → t.errCause.kind = t.errKind ∧ t.errCause ≠ .noError ∧ t.errCause ≠ .shortWrite) ∧
    (t.phase ≠ .fault → t.errKind = s.errKind ∧ t.errCause = s.errCause)

/-- R173: every run ends: where the host has placed the source, a terminal phase is reached in at most
`floor((8 * SRC_LEN - BITPOS) / 9) + 1` steps; at the start of an invocation `BITPOS` is 0. -/
def Obligations.EveryRunEnds : Prop :=
  ∀ s : State, s.phase.isRunning = true → SourcePlaced s →
    ∃ (k : Nat) (t : State), k ≤ (8 * s.srcLen - s.bitpos) / 9 + 1 ∧ Host.Core.run Sys2Proof.core k s = .next t ∧
      t.phase.isTerminal = true

/-! ## The invariants of R30 -/

/-- R30: the invariant holds in the state at power-on. -/
def Obligations.InvariantAtReset : Prop := Inv State.reset

/-- R30: every step keeps the invariant: of the core in a running phase, and of the host otherwise. -/
def Obligations.InvariantKeptByStep : Prop := ∀ s t : State, Inv s → step s = .next t → Inv t

/-- R198: `D == 1 << W`, never above 0x1000; "Whenever `N <= 0xFFF`, `N < D`"; and once `N >= 0x1000`, `W == 12` and
every 12-bit value is below `N`. -/
def Obligations.NextFreeFitsTheWidth : Prop :=
  ∀ s : State, Inv s → s.phase.isRunning = true →
    s.d = 2 ^ s.w.bits ∧ s.d ≤ 0x1000 ∧ (s.n ≤ 0xFFF → s.n < s.d) ∧
    (0x1000 ≤ s.n → s.w = .w12 ∧ ∀ cw : Code, cw.toNat < s.n)

/-- R104, R195: the width schedule by which the packer lists a stream is the decoder's: after a step that does not end
the run, the schedule's state moved on by the codeword read is the decoder's `W`, `N` and phase. -/
def Obligations.ScheduleIsTheDecoders : Prop :=
  ∀ (s t : State) (cw : Code) (s1 : State), Inv s → s.phase.isRunning = true → brRead s = .ok cw s1 →
    step s = .next t → t.phase.isRunning = true →
    ∀ p q : SchedulePhase,
      (p = .awaitingReset ↔ s.phase = .awaitingReset) → (p = .postReset ↔ s.phase = .postReset) →
      (q = .awaitingReset ↔ t.phase = .awaitingReset) → (q = .postReset ↔ t.phase = .postReset) →
      Schedule.next { w := s.w, n := s.n, phase := p } cw = { w := t.w, n := t.n, phase := q }

/-- R200: only a reset code and `START` lower `W`, and they set it to 9 and `D` to 0x200; `GROW` never lowers it. That
`START` is recognised as the head of the model's `hostQueue` is the model's choice (log entry 10). -/
def Obligations.OnlyResetLowersTheWidth : Prop :=
  (∀ s t : State, step s = .next t → t.w.bits < s.w.bits → t.w = .w9 ∧ t.d = 0x200 ∧
    ((s.phase.isRunning = true ∧ ∃ s1, brRead s = .ok 0x100#12 s1) ∨
      (s.phase.isRunning = false ∧ s.hostQueue.head? = some .start))) ∧
  (∀ s : State, ∃ t, exec .grow s = .next t ∧ s.w.bits ≤ t.w.bits)

/-- R152: `len(str(i)) <= i - 0x100` for a live composite code. -/
def Obligations.StringLengthBound : Prop :=
  ∀ (s : State) (k : Code), Inv s → s.phase.isRunning = true → 0x102 ≤ k.toNat → k.toNat < s.n →
    (str s k).length ≤ k.toNat - 0x100

/-- R152: `STACK_DEPTH >= 3839` makes `STACK_FULL` unreachable. -/
def Obligations.StackFullUnreachable : Prop :=
  ∀ s t : State, Inv s → s.phase.isRunning = true → 3839 ≤ s.cfg.stackDepth → step s = .next t →
    t.errCause ≠ .stackFull

/-- R150: the arms of `EXPAND` that raise `CHAIN_INCONSISTENT` never happen. -/
def Obligations.ChainInconsistentUnreachable : Prop :=
  ∀ s t : State, Inv s → s.phase.isRunning = true → step s = .next t → t.errCause ≠ .chainInconsistent

/-! ## The control codes and the codeword after a reset -/

/-- R164: a `RESET` codeword in any running phase sets `W`, `D`, `N` and `PHASE`; `PW` becomes unspecified; `BITPOS`,
`WR`, the stored dictionary and everything else stay. The second clause says the same of `DO_RESET` executed by
itself, in any state; that it runs outside the running phases too is the model's choice (log entry 15). -/
def Obligations.ResetCodeword : Prop :=
  (∀ (w : Width) (s : State), s.phase.isRunning = true →
    ∃ (v : Code) (k : Nat), exec (.reset w) s =
      .next { s with cw := 0x100#12, w := .w9, d := 0x200, n := 0x102, phase := .postReset, pw := v, draws := k }) ∧
  (∀ s : State, ∃ (v : Code) (k : Nat), exec .doReset s =
    .next { s with w := .w9, d := 0x200, n := 0x102, phase := .postReset, pw := v, draws := k })

/-- R168, R170: an `END` codeword in `POST_RESET` or `RUNNING` ends the run; nothing is output or added, `WR` is not
compared with `DST_CAP`, and `PW` is left as it is. -/
def Obligations.EndCodeword : Prop :=
  ∀ (w : Width) (s : State), s.phase = .postReset ∨ s.phase = .running →
    exec (.endStream w) s = .next { s with cw := 0x101#12, phase := .done }

/-- R163: the first codeword, whatever its class: 0x100 performs `DO_RESET`; every other value raises
`Fault(InvalidContainer, FIRST_NOT_RESET)`. -/
def Obligations.FirstCodewordMustBeReset : Prop :=
  ∀ (i : Instr) (c : Codeword) (s : State), s.phase = .awaitingReset → i.wellFormed = true → encode i = some c →
    (c.value = 0x100#12 → exec i s = exec .doReset { s with cw := 0x100#12 }) ∧
    (c.value ≠ 0x100#12 → exec i s =
      .next { s with cw := c.value, errKind := .invalidContainer, errCause := .firstNotReset, phase := .fault })

/-- R167: a literal in `POST_RESET` is emitted and becomes `PW`, with no dictionary entry added and no growth; with the
destination full it raises `Fault(BufferOverrun, DEST_FULL)`. The second clause says the same of `FIRST_LITERAL`
executed by itself, on the codeword in `CW`, in any phase and for any `CW`; that it runs outside `POST_RESET`, and where
`CW` is no literal, is the model's choice (log entry 15). -/
def Obligations.FirstLiteralCodeword : Prop :=
  (∀ (w : Width) (b : Byte) (s : State), s.phase = .postReset →
    (s.wr < s.dstCap → exec (.lit w b) s =
      .next { s with cw := b.setWidth 12, dst := s.dst.write s.wr b, wr := s.wr + 1, pw := b.setWidth 12,
                     phase := .running }) ∧
    (s.dstCap ≤ s.wr → exec (.lit w b) s =
      .next { s with cw := b.setWidth 12, errKind := .bufferOverrun, errCause := .destFull, phase := .fault })) ∧
  (∀ s : State,
    (s.wr < s.dstCap → exec .firstLiteral s =
      .next { s with dst := s.dst.write s.wr (s.cw.setWidth 8), wr := s.wr + 1, pw := s.cw, phase := .running }) ∧
    (s.dstCap ≤ s.wr → exec .firstLiteral s =
      .next { s with errKind := .bufferOverrun, errCause := .destFull, phase := .fault }))

/-- R169: a composite code in `POST_RESET` raises `Fault(CorruptStream, NONLITERAL_AFTER_RESET)`; nothing is output. -/
def Obligations.CompositeAfterResetFaults : Prop :=
  ∀ (i : Instr) (c : Codeword) (s : State), s.phase = .postReset → i.wellFormed = true → encode i = some c →
    0x102 ≤ c.value.toNat →
    exec i s =
      .next { s with cw := c.value, errKind := .corruptStream, errCause := .nonliteralAfterReset, phase := .fault }

/-! ## Data codewords in `RUNNING` -/

/-- R182, R185, R195: a literal in `RUNNING` writes its byte, adds the element `(PW, byte)` at `N`, grows the width where
the new `N` reaches `D`, and becomes `PW`; the same for `DATA` on the latched codeword. With the destination full it
raises `DEST_FULL`; otherwise with the table full `DICT_FULL`, after its byte has been written. -/
def Obligations.LiteralInRunning : Prop :=
  ∀ (w : Width) (b : Byte) (s : State), s.phase = .running → 0x102 ≤ s.n → s.stk = [] → 1 ≤ s.cfg.stackDepth →
    (s.wr < s.dstCap → s.n < s.cfg.dictLimit →
      ∃ t : State, t = { s with
          cw := b.setWidth 12, c := b, dst := s.dst.write s.wr b, wr := s.wr + 1,
          dict := Store.set s.dict s.n { pfx := s.pw, byte := b }, n := s.n + 1,
          w := if s.d ≤ s.n + 1 ∧ s.w ≠ .w12 then widen s.w else s.w,
          d := if s.d ≤ s.n + 1 ∧ s.w ≠ .w12 then 2 * s.d else s.d,
          pw := b.setWidth 12 } ∧
        exec (.lit w b) s = .next t ∧ exec .data { s with cw := b.setWidth 12 } = .next t) ∧
    (s.dstCap ≤ s.wr → exec (.lit w b) s =
      .next { s with cw := b.setWidth 12, c := b, errKind := .bufferOverrun, errCause := .destFull,
                     phase := .fault }) ∧
    (s.wr < s.dstCap → s.cfg.dictLimit ≤ s.n → exec (.lit w b) s =
      .next { s with cw := b.setWidth 12, c := b, dst := s.dst.write s.wr b, wr := s.wr + 1,
                     errKind := .internalLimitExceeded, errCause := .dictFull, phase := .fault })

/-- R183, R185, R195: a known code in `RUNNING` writes its string, adds the element `(PW, first byte)` at `N`, grows the
width where the new `N` reaches `D`, and becomes `PW`; the same for `DATA` on the latched codeword. Its faults in their
order (R190): `STACK_FULL` before any output, `DEST_FULL` after the bytes that fit, `DICT_FULL` after all output. -/
def Obligations.KnownCodeInRunning : Prop :=
  ∀ (w : Width) (cw : Code) (s : State), s.phase = .running → LiveChain s → s.stk = [] → 0x102 ≤ cw.toNat →
    cw.toNat < s.n → s.wr ≤ s.dstCap →
    ((str s cw).length ≤ s.cfg.stackDepth → s.wr + (str s cw).length ≤ s.dstCap → s.n < s.cfg.dictLimit →
      ∃ t : State, t = { s with
          cw := cw, c := firstByte s cw, dst := writeString s.dst s.wr (str s cw), wr := s.wr + (str s cw).length,
          dict := Store.set s.dict s.n { pfx := s.pw, byte := firstByte s cw }, n := s.n + 1,
          w := if s.d ≤ s.n + 1 ∧ s.w ≠ .w12 then widen s.w else s.w,
          d := if s.d ≤ s.n + 1 ∧ s.w ≠ .w12 then 2 * s.d else s.d,
          pw := cw } ∧
        exec (.code w cw) s = .next t ∧ exec .data { s with cw := cw } = .next t) ∧
    (s.cfg.stackDepth < (str s cw).length → exec (.code w cw) s =
      .next { s with cw := cw, stk := lastBytes s.cfg.stackDepth (str s cw),
                     errKind := .internalLimitExceeded, errCause := .stackFull, phase := .fault }) ∧
    ((str s cw).length ≤ s.cfg.stackDepth → s.dstCap < s.wr + (str s cw).length → exec (.code w cw) s =
      .next { s with cw := cw, c := firstByte s cw, stk := (str s cw).drop (s.dstCap - s.wr + 1),
                     dst := writeString s.dst s.wr ((str s cw).take (s.dstCap - s.wr)), wr := s.dstCap,
                     errKind := .bufferOverrun, errCause := .destFull, phase := .fault }) ∧
    ((str s cw).length ≤ s.cfg.stackDepth → s.wr + (str s cw).length ≤ s.dstCap → s.cfg.dictLimit ≤ s.n →
      exec (.code w cw) s =
      .next { s with cw := cw, c := firstByte s cw, dst := writeString s.dst s.wr (str s cw),
                     wr := s.wr + (str s cw).length,
                     errKind := .internalLimitExceeded, errCause := .dictFull, phase := .fault })

/-- R184, R185, R195: the code equal to `N` writes the string of `PW` and then its first byte once more, adds the
element `(PW, that byte)` at `N`, grows, and becomes `PW`; as `KWKWK`, as the `CODE` of the same words, and as `DATA`
on the latched codeword. Its faults in their order (R190): `STACK_FULL`, then `DEST_FULL` in the string of `PW`, then
`DEST_FULL` at the extra byte. (`DICT_FULL` cannot occur: `N = CW <= 0xFFF`, below every valid `DICT_LIMIT`.) -/
def Obligations.KwkwkInRunning : Prop :=
  ∀ (w : Width) (cw : Code) (s : State), s.phase = .running → LiveChain s → s.stk = [] → 0x102 ≤ cw.toNat →
    cw.toNat = s.n → HasString s s.pw → s.wr ≤ s.dstCap → s.cfg.Valid →
    ((str s s.pw).length ≤ s.cfg.stackDepth → s.wr + (str s s.pw).length + 1 ≤ s.dstCap →
      ∃ t : State, t = { s with
          cw := cw, c := firstByte s s.pw, dst := writeString s.dst s.wr (str s s.pw ++ [firstByte s s.pw]),
          wr := s.wr + (str s s.pw).length + 1,
          dict := Store.set s.dict s.n { pfx := s.pw, byte := firstByte s s.pw }, n := s.n + 1,
          w := if s.d ≤ s.n + 1 ∧ s.w ≠ .w12 then widen s.w else s.w,
          d := if s.d ≤ s.n + 1 ∧ s.w ≠ .w12 then 2 * s.d else s.d,
          pw := cw } ∧
        exec (.kwkwk w cw) s = .next t ∧ exec (.code w cw) s = .next t ∧ exec .data { s with cw := cw } = .next t) ∧
    (s.cfg.stackDepth < (str s s.pw).length → exec (.kwkwk w cw) s =
      .next { s with cw := cw, stk := lastBytes s.cfg.stackDepth (str s s.pw),
                     errKind := .internalLimitExceeded, errCause := .stackFull, phase := .fault }) ∧
    ((str s s.pw).length ≤ s.cfg.stackDepth → s.dstCap < s.wr + (str s s.pw).length → exec (.kwkwk w cw) s =
      .next { s with cw := cw, c := firstByte s s.pw, stk := (str s s.pw).drop (s.dstCap - s.wr + 1),
                     dst := writeString s.dst s.wr ((str s s.pw).take (s.dstCap - s.wr)), wr := s.dstCap,
                     errKind := .bufferOverrun, errCause := .destFull, phase := .fault }) ∧
    ((str s s.pw).length ≤ s.cfg.stackDepth → s.dstCap = s.wr + (str s s.pw).length → exec (.kwkwk w cw) s =
      .next { s with cw := cw, c := firstByte s s.pw, dst := writeString s.dst s.wr (str s s.pw), wr := s.dstCap,
                     errKind := .bufferOverrun, errCause := .destFull, phase := .fault })

/-- R186: a code above `N` raises `Fault(CorruptStream, CODE_BEYOND_NEXT_FREE)` before anything else: no expansion, no
output, no add; as `INVALID`, as the `CODE` of the same words, and as `DATA` on the latched codeword. -/
def Obligations.InvalidCodeFaults : Prop :=
  ∀ (w : Width) (cw : Code) (s : State), s.phase = .running → 0x102 ≤ cw.toNat → s.n < cw.toNat →
    ∃ t : State, t = { s with
        cw := cw, errKind := .corruptStream, errCause := .codeBeyondNextFree, phase := .fault } ∧
      exec (.invalid w cw) s = .next t ∧ exec (.code w cw) s = .next t ∧ exec .data { s with cw := cw } = .next t

/-- R187, R188: a data codeword that completes in `RUNNING` has written exactly `str(CW)` evaluated after the step, from
the old `WR` up to the new one, and the element it added at the old `N` is the old `PW` with the first of those
bytes; the string of that element is the string of the old `PW` followed by that byte. It covers `KWKWK` and `INVALID`
also where their condition on `N` does not hold: there they act as `CODE`, which is the model's choice (log entry 9). -/
def Obligations.DataCodewordWritesItsString : Prop :=
  ∀ (i : Instr) (c : Codeword) (s t : State), Inv s → s.phase = .running → i.wellFormed = true → encode i = some c →
    c.value ≠ 0x100#12 → c.value ≠ 0x101#12 → exec i s = .next t → t.phase = .running →
    t.wr = s.wr + (str t c.value).length ∧
    (∀ j, j < (str t c.value).length → t.dst.read (s.wr + j) = (str t c.value)[j]?) ∧
    Store.get? t.dict s.n = some { pfx := s.pw, byte := firstByte t c.value } ∧
    (s.n ≤ 0xFFF → str t (BitVec.ofNat 12 s.n) = str s s.pw ++ [firstByte t c.value])

/-! ## The component operations -/

/-- R130: `DICT.RESET` sets `N` to 0x102 and touches nothing else. -/
def Obligations.DictResetOperation : Prop :=
  ∀ s : State, exec .dictReset s = .next { s with n := 0x102 }

/-- R131, R132: `DICT.ADD` stores the pair at `N`, increments `N` and returns the old `N`; with the table full it raises
`Fault(InternalLimitExceeded, DICT_FULL)` and stores nothing. -/
def Obligations.DictAddOperation : Prop :=
  ∀ (p : Code) (b : Byte) (s : State),
    (s.n < s.cfg.dictLimit → exec (.dictAdd p b) s =
      .next { s with dict := Store.set s.dict s.n { pfx := p, byte := b }, n := s.n + 1, result := .assigned s.n }) ∧
    (s.cfg.dictLimit ≤ s.n → exec (.dictAdd p b) s =
      .next { s with errKind := .internalLimitExceeded, errCause := .dictFull, phase := .fault })

/-- R133: `DICT.RESOLVE` of a live element returns what the table holds there and changes nothing but the result latch;
R134: outside `0x102 <= k < N` it has no meaning. -/
def Obligations.DictResolveOperation : Prop :=
  ∀ (k : Code) (s : State),
    (0x102 ≤ k.toNat → k.toNat < s.n → ∃ e : DictEntry, exec (.dictResolve k) s =
      .next { s with result := .entry e } ∧ ∀ e', Store.get? s.dict k.toNat = some e' → e = e') ∧
    (k.toNat < 0x102 ∨ s.n ≤ k.toNat → exec (.dictResolve k) s = .refused (.resolveOutsideContract k))

/-- R131, R133: the element just added resolves to the pair given, and every other live element to what it resolved to
before. -/
def Obligations.DictAddThenResolve : Prop :=
  ∀ (p : Code) (b : Byte) (s : State), 0x102 ≤ s.n → s.n ≤ 0xFFF → s.n < s.cfg.dictLimit →
    ∃ t : State, exec (.dictAdd p b) s = .next t ∧
      exec (.dictResolve (BitVec.ofNat 12 s.n)) t = .next { t with result := .entry { pfx := p, byte := b } } ∧
      ∀ (k : Code) (e : DictEntry), 0x102 ≤ k.toNat → k.toNat < s.n →
        exec (.dictResolve k) s = .next { s with result := .entry e } →
        exec (.dictResolve k) t = .next { t with result := .entry e }

/-- R140, R141, R144: a byte is pushed where there is a slot, and popping then returns it and restores the stack; with
the stack full the push raises `Fault(InternalLimitExceeded, STACK_FULL)` and stores nothing; popping an empty stack
has no meaning (R153). -/
def Obligations.StackPushAndPop : Prop :=
  ∀ (b : Byte) (s : State),
    (s.sp < s.cfg.stackDepth → exec (.stkPush b) s = .next { s with stk := b :: s.stk }) ∧
    (s.cfg.stackDepth ≤ s.sp → exec (.stkPush b) s =
      .next { s with errKind := .internalLimitExceeded, errCause := .stackFull, phase := .fault }) ∧
    exec .stkPop { s with stk := b :: s.stk } = .next { s with result := .byte b } ∧
    (s.sp = 0 → exec .stkPop s = .refused .popOfEmptyStack)

/-- R142, R143: `STK.IS_EMPTY` returns whether `SP == 0` and `STK.TOP` the top byte, and neither changes the stack; the
top of an empty stack has no meaning (R151). -/
def Obligations.StackTopAndIsEmpty : Prop :=
  ∀ (b : Byte) (rest : List Byte) (s : State),
    exec .stkIsEmpty s = .next { s with result := .truth (decide (s.sp = 0)) } ∧
    (s.stk = b :: rest → exec .stkTop s = .next { s with result := .byte b }) ∧
    (s.sp = 0 → exec .stkTop s = .refused .topOfEmptyStack)

/-- R145, R148: `EXPAND` of a codeword that has a string leaves the string on the stack, its first byte on top, where it
fits; otherwise it raises `Fault(InternalLimitExceeded, STACK_FULL)` with the last bytes of the string that fit
pushed. On a stack that already holds bytes, outside the `assert SP == 0` of R145, the string lands on top of them: the
model's choice (log entry 15). -/
def Obligations.ExpandLeavesTheString : Prop :=
  ∀ (k : Code) (s : State), LiveChain s → HasString s k → s.sp ≤ s.cfg.stackDepth →
    (s.sp + (str s k).length ≤ s.cfg.stackDepth → exec (.expand k) s = .next { s with stk := str s k ++ s.stk }) ∧
    (s.cfg.stackDepth < s.sp + (str s k).length → exec (.expand k) s =
      .next { s with stk := lastBytes (s.cfg.stackDepth - s.sp) (str s k) ++ s.stk,
                     errKind := .internalLimitExceeded, errCause := .stackFull, phase := .fault })

/-- R145: `EXPAND` of a control code, or of a composite code that is not live, raises
`Fault(CorruptStream, CHAIN_INCONSISTENT)` with nothing pushed. That it does so also on a stack that already holds bytes,
outside the `assert SP == 0` of R145, is the model's choice (log entry 15). -/
def Obligations.ExpandOfDeadCodeFaults : Prop :=
  ∀ (k : Code) (s : State), k = 0x100#12 ∨ k = 0x101#12 ∨ (0x102 ≤ k.toNat ∧ s.n ≤ k.toNat) →
    exec (.expand k) s =
      .next { s with errKind := .corruptStream, errCause := .chainInconsistent, phase := .fault }

/-- R146: `FLUSH` writes the stack in pop order and empties it, where it fits; otherwise the bytes that fit are written,
the next one has been popped, and the rest stay on the stack. -/
def Obligations.FlushWritesTheStack : Prop :=
  ∀ s : State, s.wr ≤ s.dstCap →
    (s.wr + s.sp ≤ s.dstCap → exec .flush s =
      .next { s with dst := writeString s.dst s.wr s.stk, wr := s.wr + s.sp, stk := [] }) ∧
    (s.dstCap < s.wr + s.sp → exec .flush s =
      .next { s with dst := writeString s.dst s.wr (s.stk.take (s.dstCap - s.wr)), wr := s.dstCap,
                     stk := s.stk.drop (s.dstCap - s.wr + 1),
                     errKind := .bufferOverrun, errCause := .destFull, phase := .fault })

/-- What the writes in the statements above do to a memory: one byte reads back at its address, a string reads back byte
for byte from the address it starts at, every other address reads as before, and the canonical form is kept (R69,
R74). -/
def Obligations.WritesReadBack : Prop :=
  ∀ (m : Memory) (a : Nat) (l : List Byte),
    (∀ (b : Byte) (i : Nat), (m.write a b).read i = if i = a then some b else m.read i) ∧
    (∀ j, j < l.length → (writeString m a l).read (a + j) = l[j]?) ∧
    (∀ i, i < a ∨ a + l.length ≤ i → (writeString m a l).read i = m.read i) ∧
    (m.wf = true → (writeString m a l).wf = true)

/-- R180: `EMIT` writes the byte at `WR` and increments `WR`; every other byte of `DST` reads as before; with the
destination full it raises `Fault(BufferOverrun, DEST_FULL)` and writes nothing. -/
def Obligations.EmitOperation : Prop :=
  ∀ (b : Byte) (s : State),
    (s.wr < s.dstCap → ∃ t, exec (.emit b) s = .next t ∧ t = { s with dst := t.dst, wr := s.wr + 1 } ∧
      t.dst.read s.wr = some b ∧ ∀ a, a ≠ s.wr → t.dst.read a = s.dst.read a) ∧
    (s.dstCap ≤ s.wr → exec (.emit b) s =
      .next { s with errKind := .bufferOverrun, errCause := .destFull, phase := .fault })

/-- R185: `TAIL` adds `(PW, C)` with the old `PW`, grows on the incremented `N`, and sets `PW` to `CW`; with the table
full it raises `DICT_FULL`, and `GROW` is not run and `PW` is not updated. That it runs outside `RUNNING` too, where `PW`
and `C` are unspecified, is the model's choice (log entry 15). -/
def Obligations.TailOperation : Prop :=
  ∀ s : State,
    (s.n < s.cfg.dictLimit → exec .tail s =
      .next { s with
        dict := Store.set s.dict s.n { pfx := s.pw, byte := s.c }, n := s.n + 1,
        w := if s.d ≤ s.n + 1 ∧ s.w ≠ .w12 then widen s.w else s.w,
        d := if s.d ≤ s.n + 1 ∧ s.w ≠ .w12 then 2 * s.d else s.d,
        pw := s.cw }) ∧
    (s.cfg.dictLimit ≤ s.n → exec .tail s =
      .next { s with errKind := .internalLimitExceeded, errCause := .dictFull, phase := .fault })

/-- R195, R199, R200: `GROW` adds one to `W` and doubles `D` exactly when `N >= D` and `W < 12`, and changes nothing
else. -/
def Obligations.GrowOperation : Prop :=
  ∀ s : State,
    (s.d ≤ s.n → s.w.bits < 12 → ∃ w' : Width, w'.bits = s.w.bits + 1 ∧
      exec .grow s = .next { s with w := w', d := 2 * s.d }) ∧
    (s.n < s.d ∨ s.w.bits = 12 → exec .grow s = .next s)

/-! ## The host -/

/-- R39, R240: at power-on the phase is `IDLE`, no fault is recorded, and no step is enabled. -/
def Obligations.PowerOnState : Prop :=
  State.reset.phase = .idle ∧ State.reset.errKind = .noError ∧ State.reset.errCause = .noError ∧
    step State.reset = .fault (.noStepEnabled .idle)

/-- R241: `START` in `IDLE`, `DONE` or `FAULT` begins an invocation; `PW`, `CW`, `C` and the dictionary become
unspecified, and `SRC`, `DST`, `SRC_LEN`, `DST_CAP` are taken as the host left them. -/
def Obligations.StartBeginsInvocation : Prop :=
  ∀ s : State, s.phase = .idle ∨ s.phase = .done ∨ s.phase = .fault →
    ∃ (v1 v2 : Code) (v3 : Byte) (k seed : Nat), exec .start s =
      .next { s with
        w := .w9, d := 0x200, n := 0x102, bitpos := 0, wr := 0, stk := [], errKind := .noError,
        errCause := .noError, phase := .awaitingReset, pw := v1, cw := v2, c := v3, dict := [], result := .nothing,
        draws := k, tableSeed := seed }

/-- R37: no state persists across invocations: `START` gives the same state from any two states that agree on what
belongs to the host (`SRC`, `DST`, `SRC_LEN`, `DST_CAP`, its coming actions), on the parameters, and on the model's
count of free values. -/
def Obligations.StartForgetsTheLastInvocation : Prop :=
  ∀ s s' : State, s.phase.isRunning = false → s'.phase.isRunning = false →
    s.cfg = s'.cfg → s.src = s'.src → s.dst = s'.dst → s.srcLen = s'.srcLen → s.dstCap = s'.dstCap →
    s.hostQueue = s'.hostQueue → s.draws = s'.draws → exec .start s = exec .start s'

/-- R255: `START` during a run has no defined effect. -/
def Obligations.StartDuringRunRefused : Prop :=
  ∀ s : State, s.phase.isRunning = true → exec .start s = .refused .startWhileRunning

/-- R27, R171, R222: where no step is enabled, only the host's `START` changes the phase or any register of the block;
the host's other actions change only the buffers, `SRC_LEN` and `DST_CAP`; and with no action of the host nothing
moves. -/
def Obligations.OnlyStartLeavesTerminalPhase : Prop :=
  ∀ s : State, s.phase.isRunning = false →
    (s.hostQueue = [] → step s = .fault (.noStepEnabled s.phase)) ∧
    (∀ rest, s.hostQueue = .start :: rest → step s = exec .start { s with hostQueue := rest }) ∧
    (∀ a rest t, s.hostQueue = a :: rest → a ≠ .start → step s = .next t →
      t = { s with src := t.src, dst := t.dst, srcLen := t.srcLen, dstCap := t.dstCap, hostQueue := rest })

/-- R93: for a file of at least 6 bytes whose 4th byte is zero, the host's check of the first codeword is exactly that
the first codeword of the stream, read as 9 bits at bit offset 0, is the reset code. -/
def Obligations.ContainerCheckIsFirstCodeword : Prop :=
  ∀ file : List Byte, 6 ≤ file.length → byteAt file 3 = 0x00#8 →
    (containerCheck file = none ↔ decodeBytes .w9 0 (file.drop 4) = .ok (.reset .w9))

/-- R245, R246, R247, R244: from any state in which the block is not running, the host's actions for a container that
passes its checks end in a started invocation whose source is the file from byte 4 on and whose capacity is the
header's 24-bit length. -/
def Obligations.ContainerSetsUpInvocation : Prop :=
  ∀ (file : List Byte) (acts : List HostAction) (s : State), containerActions file = .ok acts →
    s.phase.isRunning = false → file.length - 4 ≤ s.cfg.srcLenMax →
    ∃ t : State, Host.Core.run Sys2Proof.core acts.length { s with hostQueue := acts } = .next t ∧
      t.phase = .awaitingReset ∧ t.bitpos = 0 ∧ t.wr = 0 ∧ t.w = .w9 ∧ t.hostQueue = [] ∧ t.dst = s.dst ∧
      t.srcLen = file.length - 4 ∧ t.dstCap = containerSize file ∧ t.dstCap ≤ 0xFFFFFF ∧
      ∀ a, a < t.srcLen → t.src.read a = file[4 + a]?

/-- R35, R172, R219 (b), R248 to R250: the host's reading of a terminal phase. -/
def Obligations.HostReadsTheResult : Prop :=
  ∀ s : State,
    (s.phase = .done → s.wr = s.dstCap → s.success = true ∧ s.short = false ∧ hostVerdict s = .success s.wr) ∧
    (s.phase = .done → s.wr ≠ s.dstCap →
      s.success = false ∧ s.short = true ∧ hostVerdict s = .failed .bufferOverrun .shortWrite) ∧
    (s.phase = .fault → s.success = false ∧ s.short = false ∧ hostVerdict s = .failed s.errKind s.errCause)

/-- R215, R219: the numeric codes of the fault kinds and causes. -/
def Obligations.FaultCodes : Prop :=
  [ErrKind.noError, .invalidContainer, .corruptStream, .bufferOverrun, .internalLimitExceeded].map ErrKind.num
    = [0, 1, 2, 3, 4] ∧
  [ErrCause.noError, .firstNotReset, .codeBeyondNextFree, .nonliteralAfterReset, .chainInconsistent,
    .sourceExhausted, .destFull, .shortWrite, .dictFull, .stackFull].map ErrCause.num
    = [0x00, 0x10, 0x20, 0x21, 0x22, 0x30, 0x31, 0x32, 0x40, 0x41] ∧
  ∀ c : ErrCause, c.kind.num = c.num / 16

/-- R245, R219 (a): a file shorter than 6 bytes, or whose 4th byte is not zero, or whose first 9 stream bits are not the
reset code, is rejected as `InvalidContainer` whatever the block's state, and the host has no actions for it, so the core
is not started; any other file has actions, and its verdict is that of the state its invocation ends in. (The actions and
the verdict are the model's form of the host, log entry 10.) -/
def Obligations.InvalidContainerRejected : Prop :=
  ∀ (file : List Byte) (s : State),
    (file.length < 6 ∨ byteAt file 3 ≠ 0x00#8 ∨ byteAt file 4 ≠ 0x00#8 ∨ (byteAt file 5).getLsbD 0 = false →
      fileVerdict file s = .rejected .invalidContainer ∧ ∃ e, containerActions file = .error e) ∧
    (6 ≤ file.length → byteAt file 3 = 0x00#8 → byteAt file 4 = 0x00#8 → (byteAt file 5).getLsbD 0 = true →
      fileVerdict file s = hostVerdict s ∧ ∃ acts, containerActions file = .ok acts)
end

