-- ==== Sys2Proof/Laws/State.lean ====
section
/-! SUPPORT. One lemma per field per named update of the state, each true by rfl, so that no proof unfolds a record
update; and the two conditional updates, `GROW` and the end of a step. -/

namespace Sys2Proof.Machine

@[simp] theorem latch_cfg (k : Code) (s : State) : (latch k s).cfg = s.cfg := rfl
@[simp] theorem latch_w (k : Code) (s : State) : (latch k s).w = s.w := rfl
@[simp] theorem latch_d (k : Code) (s : State) : (latch k s).d = s.d := rfl
@[simp] theorem latch_n (k : Code) (s : State) : (latch k s).n = s.n := rfl
@[simp] theorem latch_pw (k : Code) (s : State) : (latch k s).pw = s.pw := rfl
@[simp] theorem latch_bitpos (k : Code) (s : State) : (latch k s).bitpos = s.bitpos := rfl
@[simp] theorem latch_wr (k : Code) (s : State) : (latch k s).wr = s.wr := rfl
@[simp] theorem latch_phase (k : Code) (s : State) : (latch k s).phase = s.phase := rfl
@[simp] theorem latch_errKind (k : Code) (s : State) : (latch k s).errKind = s.errKind := rfl
@[simp] theorem latch_errCause (k : Code) (s : State) : (latch k s).errCause = s.errCause := rfl
@[simp] theorem latch_cw (k : Code) (s : State) : (latch k s).cw = k := rfl
@[simp] theorem latch_c (k : Code) (s : State) : (latch k s).c = s.c := rfl
@[simp] theorem latch_dict (k : Code) (s : State) : (latch k s).dict = s.dict := rfl
@[simp] theorem latch_stk (k : Code) (s : State) : (latch k s).stk = s.stk := rfl
@[simp] theorem latch_srcLen (k : Code) (s : State) : (latch k s).srcLen = s.srcLen := rfl
@[simp] theorem latch_dstCap (k : Code) (s : State) : (latch k s).dstCap = s.dstCap := rfl
@[simp] theorem latch_src (k : Code) (s : State) : (latch k s).src = s.src := rfl
@[simp] theorem latch_dst (k : Code) (s : State) : (latch k s).dst = s.dst := rfl
@[simp] theorem latch_hostQueue (k : Code) (s : State) : (latch k s).hostQueue = s.hostQueue := rfl
@[simp] theorem latch_result (k : Code) (s : State) : (latch k s).result = s.result := rfl
@[simp] theorem latch_draws (k : Code) (s : State) : (latch k s).draws = s.draws := rfl
@[simp] theorem latch_tableSeed (k : Code) (s : State) : (latch k s).tableSeed = s.tableSeed := rfl

@[simp] theorem withStack_cfg (l : List Byte) (s : State) : (withStack l s).cfg = s.cfg := rfl
@[simp] theorem withStack_w (l : List Byte) (s : State) : (withStack l s).w = s.w := rfl
@[simp] theorem withStack_d (l : List Byte) (s : State) : (withStack l s).d = s.d := rfl
@[simp] theorem withStack_n (l : List Byte) (s : State) : (withStack l s).n = s.n := rfl
@[simp] theorem withStack_pw (l : List Byte) (s : State) : (withStack l s).pw = s.pw := rfl
@[simp] theorem withStack_bitpos (l : List Byte) (s : State) : (withStack l s).bitpos = s.bitpos := rfl
@[simp] theorem withStack_wr (l : List Byte) (s : State) : (withStack l s).wr = s.wr := rfl
@[simp] theorem withStack_phase (l : List Byte) (s : State) : (withStack l s).phase = s.phase := rfl
@[simp] theorem withStack_errKind (l : List Byte) (s : State) : (withStack l s).errKind = s.errKind := rfl
@[simp] theorem withStack_errCause (l : List Byte) (s : State) : (withStack l s).errCause = s.errCause := rfl
@[simp] theorem withStack_cw (l : List Byte) (s : State) : (withStack l s).cw = s.cw := rfl
@[simp] theorem withStack_c (l : List Byte) (s : State) : (withStack l s).c = s.c := rfl
@[simp] theorem withStack_dict (l : List Byte) (s : State) : (withStack l s).dict = s.dict := rfl
@[simp] theorem withStack_stk (l : List Byte) (s : State) : (withStack l s).stk = l := rfl
@[simp] theorem withStack_srcLen (l : List Byte) (s : State) : (withStack l s).srcLen = s.srcLen := rfl
@[simp] theorem withStack_dstCap (l : List Byte) (s : State) : (withStack l s).dstCap = s.dstCap := rfl
@[simp] theorem withStack_src (l : List Byte) (s : State) : (withStack l s).src = s.src := rfl
@[simp] theorem withStack_dst (l : List Byte) (s : State) : (withStack l s).dst = s.dst := rfl
@[simp] theorem withStack_hostQueue (l : List Byte) (s : State) : (withStack l s).hostQueue = s.hostQueue := rfl
@[simp] theorem withStack_result (l : List Byte) (s : State) : (withStack l s).result = s.result := rfl
@[simp] theorem withStack_draws (l : List Byte) (s : State) : (withStack l s).draws = s.draws := rfl
@[simp] theorem withStack_tableSeed (l : List Byte) (s : State) : (withStack l s).tableSeed = s.tableSeed := rfl

@[simp] theorem withFirst_cfg (b : Byte) (s : State) : (withFirst b s).cfg = s.cfg := rfl
@[simp] theorem withFirst_w (b : Byte) (s : State) : (withFirst b s).w = s.w := rfl
@[simp] theorem withFirst_d (b : Byte) (s : State) : (withFirst b s).d = s.d := rfl
@[simp] theorem withFirst_n (b : Byte) (s : State) : (withFirst b s).n = s.n := rfl
@[simp] theorem withFirst_pw (b : Byte) (s : State) : (withFirst b s).pw = s.pw := rfl
@[simp] theorem withFirst_bitpos (b : Byte) (s : State) : (withFirst b s).bitpos = s.bitpos := rfl
@[simp] theorem withFirst_wr (b : Byte) (s : State) : (withFirst b s).wr = s.wr := rfl
@[simp] theorem withFirst_phase (b : Byte) (s : State) : (withFirst b s).phase = s.phase := rfl
@[simp] theorem withFirst_errKind (b : Byte) (s : State) : (withFirst b s).errKind = s.errKind := rfl
@[simp] theorem withFirst_errCause (b : Byte) (s : State) : (withFirst b s).errCause = s.errCause := rfl
@[simp] theorem withFirst_cw (b : Byte) (s : State) : (withFirst b s).cw = s.cw := rfl
@[simp] theorem withFirst_c (b : Byte) (s : State) : (withFirst b s).c = b := rfl
@[simp] theorem withFirst_dict (b : Byte) (s : State) : (withFirst b s).dict = s.dict := rfl
@[simp] theorem withFirst_stk (b : Byte) (s : State) : (withFirst b s).stk = s.stk := rfl
@[simp] theorem withFirst_srcLen (b : Byte) (s : State) : (withFirst b s).srcLen = s.srcLen := rfl
@[simp] theorem withFirst_dstCap (b : Byte) (s : State) : (withFirst b s).dstCap = s.dstCap := rfl
@[simp] theorem withFirst_src (b : Byte) (s : State) : (withFirst b s).src = s.src := rfl
@[simp] theorem withFirst_dst (b : Byte) (s : State) : (withFirst b s).dst = s.dst := rfl
@[simp] theorem withFirst_hostQueue (b : Byte) (s : State) : (withFirst b s).hostQueue = s.hostQueue := rfl
@[simp] theorem withFirst_result (b : Byte) (s : State) : (withFirst b s).result = s.result := rfl
@[simp] theorem withFirst_draws (b : Byte) (s : State) : (withFirst b s).draws = s.draws := rfl
@[simp] theorem withFirst_tableSeed (b : Byte) (s : State) : (withFirst b s).tableSeed = s.tableSeed := rfl

@[simp] theorem withPrevious_cfg (k : Code) (s : State) : (withPrevious k s).cfg = s.cfg := rfl
@[simp] theorem withPrevious_w (k : Code) (s : State) : (withPrevious k s).w = s.w := rfl
@[simp] theorem withPrevious_d (k : Code) (s : State) : (withPrevious k s).d = s.d := rfl
@[simp] theorem withPrevious_n (k : Code) (s : State) : (withPrevious k s).n = s.n := rfl
@[simp] theorem withPrevious_pw (k : Code) (s : State) : (withPrevious k s).pw = k := rfl
@[simp] theorem withPrevious_bitpos (k : Code) (s : State) : (withPrevious k s).bitpos = s.bitpos := rfl
@[simp] theorem withPrevious_wr (k : Code) (s : State) : (withPrevious k s).wr = s.wr := rfl
@[simp] theorem withPrevious_phase (k : Code) (s : State) : (withPrevious k s).phase = s.phase := rfl
@[simp] theorem withPrevious_errKind (k : Code) (s : State) : (withPrevious k s).errKind = s.errKind := rfl
@[simp] theorem withPrevious_errCause (k : Code) (s : State) : (withPrevious k s).errCause = s.errCause := rfl
@[simp] theorem withPrevious_cw (k : Code) (s : State) : (withPrevious k s).cw = s.cw := rfl
@[simp] theorem withPrevious_c (k : Code) (s : State) : (withPrevious k s).c = s.c := rfl
@[simp] theorem withPrevious_dict (k : Code) (s : State) : (withPrevious k s).dict = s.dict := rfl
@[simp] theorem withPrevious_stk (k : Code) (s : State) : (withPrevious k s).stk = s.stk := rfl
@[simp] theorem withPrevious_srcLen (k : Code) (s : State) : (withPrevious k s).srcLen = s.srcLen := rfl
@[simp] theorem withPrevious_dstCap (k : Code) (s : State) : (withPrevious k s).dstCap = s.dstCap := rfl
@[simp] theorem withPrevious_src (k : Code) (s : State) : (withPrevious k s).src = s.src := rfl
@[simp] theorem withPrevious_dst (k : Code) (s : State) : (withPrevious k s).dst = s.dst := rfl
@[simp] theorem withPrevious_hostQueue (k : Code) (s : State) : (withPrevious k s).hostQueue = s.hostQueue := rfl
@[simp] theorem withPrevious_result (k : Code) (s : State) : (withPrevious k s).result = s.result := rfl
@[simp] theorem withPrevious_draws (k : Code) (s : State) : (withPrevious k s).draws = s.draws := rfl
@[simp] theorem withPrevious_tableSeed (k : Code) (s : State) : (withPrevious k s).tableSeed = s.tableSeed := rfl

@[simp] theorem withPhase_cfg (p : Phase) (s : State) : (withPhase p s).cfg = s.cfg := rfl
@[simp] theorem withPhase_w (p : Phase) (s : State) : (withPhase p s).w = s.w := rfl
@[simp] theorem withPhase_d (p : Phase) (s : State) : (withPhase p s).d = s.d := rfl
@[simp] theorem withPhase_n (p : Phase) (s : State) : (withPhase p s).n = s.n := rfl
@[simp] theorem withPhase_pw (p : Phase) (s : State) : (withPhase p s).pw = s.pw := rfl
@[simp] theorem withPhase_bitpos (p : Phase) (s : State) : (withPhase p s).bitpos = s.bitpos := rfl
@[simp] theorem withPhase_wr (p : Phase) (s : State) : (withPhase p s).wr = s.wr := rfl
@[simp] theorem withPhase_phase (p : Phase) (s : State) : (withPhase p s).phase = p := rfl
@[simp] theorem withPhase_errKind (p : Phase) (s : State) : (withPhase p s).errKind = s.errKind := rfl
@[simp] theorem withPhase_errCause (p : Phase) (s : State) : (withPhase p s).errCause = s.errCause := rfl
@[simp] theorem withPhase_cw (p : Phase) (s : State) : (withPhase p s).cw = s.cw := rfl
@[simp] theorem withPhase_c (p : Phase) (s : State) : (withPhase p s).c = s.c := rfl
@[simp] theorem withPhase_dict (p : Phase) (s : State) : (withPhase p s).dict = s.dict := rfl
@[simp] theorem withPhase_stk (p : Phase) (s : State) : (withPhase p s).stk = s.stk := rfl
@[simp] theorem withPhase_srcLen (p : Phase) (s : State) : (withPhase p s).srcLen = s.srcLen := rfl
@[simp] theorem withPhase_dstCap (p : Phase) (s : State) : (withPhase p s).dstCap = s.dstCap := rfl
@[simp] theorem withPhase_src (p : Phase) (s : State) : (withPhase p s).src = s.src := rfl
@[simp] theorem withPhase_dst (p : Phase) (s : State) : (withPhase p s).dst = s.dst := rfl
@[simp] theorem withPhase_hostQueue (p : Phase) (s : State) : (withPhase p s).hostQueue = s.hostQueue := rfl
@[simp] theorem withPhase_result (p : Phase) (s : State) : (withPhase p s).result = s.result := rfl
@[simp] theorem withPhase_draws (p : Phase) (s : State) : (withPhase p s).draws = s.draws := rfl
@[simp] theorem withPhase_tableSeed (p : Phase) (s : State) : (withPhase p s).tableSeed = s.tableSeed := rfl

@[simp] theorem consume_cfg (k : Code) (s : State) : (consume k s).cfg = s.cfg := rfl
@[simp] theorem consume_w (k : Code) (s : State) : (consume k s).w = s.w := rfl
@[simp] theorem consume_d (k : Code) (s : State) : (consume k s).d = s.d := rfl
@[simp] theorem consume_n (k : Code) (s : State) : (consume k s).n = s.n := rfl
@[simp] theorem consume_pw (k : Code) (s : State) : (consume k s).pw = s.pw := rfl
@[simp] theorem consume_bitpos (k : Code) (s : State) : (consume k s).bitpos = s.bitpos + s.w.bits := rfl
@[simp] theorem consume_wr (k : Code) (s : State) : (consume k s).wr = s.wr := rfl
@[simp] theorem consume_phase (k : Code) (s : State) : (consume k s).phase = s.phase := rfl
@[simp] theorem consume_errKind (k : Code) (s : State) : (consume k s).errKind = s.errKind := rfl
@[simp] theorem consume_errCause (k : Code) (s : State) : (consume k s).errCause = s.errCause := rfl
@[simp] theorem consume_cw (k : Code) (s : State) : (consume k s).cw = k := rfl
@[simp] theorem consume_c (k : Code) (s : State) : (consume k s).c = s.c := rfl
@[simp] theorem consume_dict (k : Code) (s : State) : (consume k s).dict = s.dict := rfl
@[simp] theorem consume_stk (k : Code) (s : State) : (consume k s).stk = s.stk := rfl
@[simp] theorem consume_srcLen (k : Code) (s : State) : (consume k s).srcLen = s.srcLen := rfl
@[simp] theorem consume_dstCap (k : Code) (s : State) : (consume k s).dstCap = s.dstCap := rfl
@[simp] theorem consume_src (k : Code) (s : State) : (consume k s).src = s.src := rfl
@[simp] theorem consume_dst (k : Code) (s : State) : (consume k s).dst = s.dst := rfl
@[simp] theorem consume_hostQueue (k : Code) (s : State) : (consume k s).hostQueue = s.hostQueue := rfl
@[simp] theorem consume_result (k : Code) (s : State) : (consume k s).result = s.result := rfl
@[simp] theorem consume_draws (k : Code) (s : State) : (consume k s).draws = s.draws := rfl
@[simp] theorem consume_tableSeed (k : Code) (s : State) : (consume k s).tableSeed = s.tableSeed := rfl

@[simp] theorem withResult_cfg (r : OpResult) (s : State) : (withResult r s).cfg = s.cfg := rfl
@[simp] theorem withResult_w (r : OpResult) (s : State) : (withResult r s).w = s.w := rfl
@[simp] theorem withResult_d (r : OpResult) (s : State) : (withResult r s).d = s.d := rfl
@[simp] theorem withResult_n (r : OpResult) (s : State) : (withResult r s).n = s.n := rfl
@[simp] theorem withResult_pw (r : OpResult) (s : State) : (withResult r s).pw = s.pw := rfl
@[simp] theorem withResult_bitpos (r : OpResult) (s : State) : (withResult r s).bitpos = s.bitpos := rfl
@[simp] theorem withResult_wr (r : OpResult) (s : State) : (withResult r s).wr = s.wr := rfl
@[simp] theorem withResult_phase (r : OpResult) (s : State) : (withResult r s).phase = s.phase := rfl
@[simp] theorem withResult_errKind (r : OpResult) (s : State) : (withResult r s).errKind = s.errKind := rfl
@[simp] theorem withResult_errCause (r : OpResult) (s : State) : (withResult r s).errCause = s.errCause := rfl
@[simp] theorem withResult_cw (r : OpResult) (s : State) : (withResult r s).cw = s.cw := rfl
@[simp] theorem withResult_c (r : OpResult) (s : State) : (withResult r s).c = s.c := rfl
@[simp] theorem withResult_dict (r : OpResult) (s : State) : (withResult r s).dict = s.dict := rfl
@[simp] theorem withResult_stk (r : OpResult) (s : State) : (withResult r s).stk = s.stk := rfl
@[simp] theorem withResult_srcLen (r : OpResult) (s : State) : (withResult r s).srcLen = s.srcLen := rfl
@[simp] theorem withResult_dstCap (r : OpResult) (s : State) : (withResult r s).dstCap = s.dstCap := rfl
@[simp] theorem withResult_src (r : OpResult) (s : State) : (withResult r s).src = s.src := rfl
@[simp] theorem withResult_dst (r : OpResult) (s : State) : (withResult r s).dst = s.dst := rfl
@[simp] theorem withResult_hostQueue (r : OpResult) (s : State) : (withResult r s).hostQueue = s.hostQueue := rfl
@[simp] theorem withResult_result (r : OpResult) (s : State) : (withResult r s).result = r := rfl
@[simp] theorem withResult_draws (r : OpResult) (s : State) : (withResult r s).draws = s.draws := rfl
@[simp] theorem withResult_tableSeed (r : OpResult) (s : State) : (withResult r s).tableSeed = s.tableSeed := rfl

@[simp] theorem putByte_cfg (v : Byte) (s : State) : (putByte v s).cfg = s.cfg := rfl
@[simp] theorem putByte_w (v : Byte) (s : State) : (putByte v s).w = s.w := rfl
@[simp] theorem putByte_d (v : Byte) (s : State) : (putByte v s).d = s.d := rfl
@[simp] theorem putByte_n (v : Byte) (s : State) : (putByte v s).n = s.n := rfl
@[simp] theorem putByte_pw (v : Byte) (s : State) : (putByte v s).pw = s.pw := rfl
@[simp] theorem putByte_bitpos (v : Byte) (s : State) : (putByte v s).bitpos = s.bitpos := rfl
@[simp] theorem putByte_wr (v : Byte) (s : State) : (putByte v s).wr = s.wr + 1 := rfl
@[simp] theorem putByte_phase (v : Byte) (s : State) : (putByte v s).phase = s.phase := rfl
@[simp] theorem putByte_errKind (v : Byte) (s : State) : (putByte v s).errKind = s.errKind := rfl
@[simp] theorem putByte_errCause (v : Byte) (s : State) : (putByte v s).errCause = s.errCause := rfl
@[simp] theorem putByte_cw (v : Byte) (s : State) : (putByte v s).cw = s.cw := rfl
@[simp] theorem putByte_c (v : Byte) (s : State) : (putByte v s).c = s.c := rfl
@[simp] theorem putByte_dict (v : Byte) (s : State) : (putByte v s).dict = s.dict := rfl
@[simp] theorem putByte_stk (v : Byte) (s : State) : (putByte v s).stk = s.stk := rfl
@[simp] theorem putByte_srcLen (v : Byte) (s : State) : (putByte v s).srcLen = s.srcLen := rfl
@[simp] theorem putByte_dstCap (v : Byte) (s : State) : (putByte v s).dstCap = s.dstCap := rfl
@[simp] theorem putByte_src (v : Byte) (s : State) : (putByte v s).src = s.src := rfl
@[simp] theorem putByte_dst (v : Byte) (s : State) : (putByte v s).dst = s.dst.write s.wr v := rfl
@[simp] theorem putByte_hostQueue (v : Byte) (s : State) : (putByte v s).hostQueue = s.hostQueue := rfl
@[simp] theorem putByte_result (v : Byte) (s : State) : (putByte v s).result = s.result := rfl
@[simp] theorem putByte_draws (v : Byte) (s : State) : (putByte v s).draws = s.draws := rfl
@[simp] theorem putByte_tableSeed (v : Byte) (s : State) : (putByte v s).tableSeed = s.tableSeed := rfl

@[simp] theorem addEntry_cfg (p : Code) (b : Byte) (s : State) : (addEntry p b s).cfg = s.cfg := rfl
@[simp] theorem addEntry_w (p : Code) (b : Byte) (s : State) : (addEntry p b s).w = s.w := rfl
@[simp] theorem addEntry_d (p : Code) (b : Byte) (s : State) : (addEntry p b s).d = s.d := rfl
@[simp] theorem addEntry_n (p : Code) (b : Byte) (s : State) : (addEntry p b s).n = s.n + 1 := rfl
@[simp] theorem addEntry_pw (p : Code) (b : Byte) (s : State) : (addEntry p b s).pw = s.pw := rfl
@[simp] theorem addEntry_bitpos (p : Code) (b : Byte) (s : State) : (addEntry p b s).bitpos = s.bitpos := rfl
@[simp] theorem addEntry_wr (p : Code) (b : Byte) (s : State) : (addEntry p b s).wr = s.wr := rfl
@[simp] theorem addEntry_phase (p : Code) (b : Byte) (s : State) : (addEntry p b s).phase = s.phase := rfl
@[simp] theorem addEntry_errKind (p : Code) (b : Byte) (s : State) : (addEntry p b s).errKind = s.errKind := rfl
@[simp] theorem addEntry_errCause (p : Code) (b : Byte) (s : State) : (addEntry p b s).errCause = s.errCause := rfl
@[simp] theorem addEntry_cw (p : Code) (b : Byte) (s : State) : (addEntry p b s).cw = s.cw := rfl
@[simp] theorem addEntry_c (p : Code) (b : Byte) (s : State) : (addEntry p b s).c = s.c := rfl
@[simp] theorem addEntry_dict (p : Code) (b : Byte) (s : State) : (addEntry p b s).dict = Store.set s.dict s.n { pfx := p, byte := b } := rfl
@[simp] theorem addEntry_stk (p : Code) (b : Byte) (s : State) : (addEntry p b s).stk = s.stk := rfl
@[simp] theorem addEntry_srcLen (p : Code) (b : Byte) (s : State) : (addEntry p b s).srcLen = s.srcLen := rfl
@[simp] theorem addEntry_dstCap (p : Code) (b : Byte) (s : State) : (addEntry p b s).dstCap = s.dstCap := rfl
@[simp] theorem addEntry_src (p : Code) (b : Byte) (s : State) : (addEntry p b s).src = s.src := rfl
@[simp] theorem addEntry_dst (p : Code) (b : Byte) (s : State) : (addEntry p b s).dst = s.dst := rfl
@[simp] theorem addEntry_hostQueue (p : Code) (b : Byte) (s : State) : (addEntry p b s).hostQueue = s.hostQueue := rfl
@[simp] theorem addEntry_result (p : Code) (b : Byte) (s : State) : (addEntry p b s).result = s.result := rfl
@[simp] theorem addEntry_draws (p : Code) (b : Byte) (s : State) : (addEntry p b s).draws = s.draws := rfl
@[simp] theorem addEntry_tableSeed (p : Code) (b : Byte) (s : State) : (addEntry p b s).tableSeed = s.tableSeed := rfl

@[simp] theorem takeFault_cfg (kd : ErrKind) (ce : ErrCause) (s : State) : (takeFault kd ce s).cfg = s.cfg := rfl
@[simp] theorem takeFault_w (kd : ErrKind) (ce : ErrCause) (s : State) : (takeFault kd ce s).w = s.w := rfl
@[simp] theorem takeFault_d (kd : ErrKind) (ce : ErrCause) (s : State) : (takeFault kd ce s).d = s.d := rfl
@[simp] theorem takeFault_n (kd : ErrKind) (ce : ErrCause) (s : State) : (takeFault kd ce s).n = s.n := rfl
@[simp] theorem takeFault_pw (kd : ErrKind) (ce : ErrCause) (s : State) : (takeFault kd ce s).pw = s.pw := rfl
@[simp] theorem takeFault_bitpos (kd : ErrKind) (ce : ErrCause) (s : State) : (takeFault kd ce s).bitpos = s.bitpos := rfl
@[simp] theorem takeFault_wr (kd : ErrKind) (ce : ErrCause) (s : State) : (takeFault kd ce s).wr = s.wr := rfl
@[simp] theorem takeFault_phase (kd : ErrKind) (ce : ErrCause) (s : State) : (takeFault kd ce s).phase = .fault := rfl
@[simp] theorem takeFault_errKind (kd : ErrKind) (ce : ErrCause) (s : State) : (takeFault kd ce s).errKind = kd := rfl
@[simp] theorem takeFault_errCause (kd : ErrKind) (ce : ErrCause) (s : State) : (takeFault kd ce s).errCause = ce := rfl
@[simp] theorem takeFault_cw (kd : ErrKind) (ce : ErrCause) (s : State) : (takeFault kd ce s).cw = s.cw := rfl
@[simp] theorem takeFault_c (kd : ErrKind) (ce : ErrCause) (s : State) : (takeFault kd ce s).c = s.c := rfl
@[simp] theorem takeFault_dict (kd : ErrKind) (ce : ErrCause) (s : State) : (takeFault kd ce s).dict = s.dict := rfl
@[simp] theorem takeFault_stk (kd : ErrKind) (ce : ErrCause) (s : State) : (takeFault kd ce s).stk = s.stk := rfl
@[simp] theorem takeFault_srcLen (kd : ErrKind) (ce : ErrCause) (s : State) : (takeFault kd ce s).srcLen = s.srcLen := rfl
@[simp] theorem takeFault_dstCap (kd : ErrKind) (ce : ErrCause) (s : State) : (takeFault kd ce s).dstCap = s.dstCap := rfl
@[simp] theorem takeFault_src (kd : ErrKind) (ce : ErrCause) (s : State) : (takeFault kd ce s).src = s.src := rfl
@[simp] theorem takeFault_dst (kd : ErrKind) (ce : ErrCause) (s : State) : (takeFault kd ce s).dst = s.dst := rfl
@[simp] theorem takeFault_hostQueue (kd : ErrKind) (ce : ErrCause) (s : State) : (takeFault kd ce s).hostQueue = s.hostQueue := rfl
@[simp] theorem takeFault_result (kd : ErrKind) (ce : ErrCause) (s : State) : (takeFault kd ce s).result = s.result := rfl
@[simp] theorem takeFault_draws (kd : ErrKind) (ce : ErrCause) (s : State) : (takeFault kd ce s).draws = s.draws := rfl
@[simp] theorem takeFault_tableSeed (kd : ErrKind) (ce : ErrCause) (s : State) : (takeFault kd ce s).tableSeed = s.tableSeed := rfl

@[simp] theorem dictReset_cfg (s : State) : (dictReset s).cfg = s.cfg := rfl
@[simp] theorem dictReset_w (s : State) : (dictReset s).w = s.w := rfl
@[simp] theorem dictReset_d (s : State) : (dictReset s).d = s.d := rfl
@[simp] theorem dictReset_n (s : State) : (dictReset s).n = Config.firstFree := rfl
@[simp] theorem dictReset_pw (s : State) : (dictReset s).pw = s.pw := rfl
@[simp] theorem dictReset_bitpos (s : State) : (dictReset s).bitpos = s.bitpos := rfl
@[simp] theorem dictReset_wr (s : State) : (dictReset s).wr = s.wr := rfl
@[simp] theorem dictReset_phase (s : State) : (dictReset s).phase = s.phase := rfl
@[simp] theorem dictReset_errKind (s : State) : (dictReset s).errKind = s.errKind := rfl
@[simp] theorem dictReset_errCause (s : State) : (dictReset s).errCause = s.errCause := rfl
@[simp] theorem dictReset_cw (s : State) : (dictReset s).cw = s.cw := rfl
@[simp] theorem dictReset_c (s : State) : (dictReset s).c = s.c := rfl
@[simp] theorem dictReset_dict (s : State) : (dictReset s).dict = s.dict := rfl
@[simp] theorem dictReset_stk (s : State) : (dictReset s).stk = s.stk := rfl
@[simp] theorem dictReset_srcLen (s : State) : (dictReset s).srcLen = s.srcLen := rfl
@[simp] theorem dictReset_dstCap (s : State) : (dictReset s).dstCap = s.dstCap := rfl
@[simp] theorem dictReset_src (s : State) : (dictReset s).src = s.src := rfl
@[simp] theorem dictReset_dst (s : State) : (dictReset s).dst = s.dst := rfl
@[simp] theorem dictReset_hostQueue (s : State) : (dictReset s).hostQueue = s.hostQueue := rfl
@[simp] theorem dictReset_result (s : State) : (dictReset s).result = s.result := rfl
@[simp] theorem dictReset_draws (s : State) : (dictReset s).draws = s.draws := rfl
@[simp] theorem dictReset_tableSeed (s : State) : (dictReset s).tableSeed = s.tableSeed := rfl

@[simp] theorem doReset_cfg (s : State) : (doReset s).cfg = s.cfg := rfl
@[simp] theorem doReset_w (s : State) : (doReset s).w = .w9 := rfl
@[simp] theorem doReset_d (s : State) : (doReset s).d = Config.dInit := rfl
@[simp] theorem doReset_n (s : State) : (doReset s).n = Config.firstFree := rfl
@[simp] theorem doReset_pw (s : State) : (doReset s).pw = Config.freeCode s.draws := rfl
@[simp] theorem doReset_bitpos (s : State) : (doReset s).bitpos = s.bitpos := rfl
@[simp] theorem doReset_wr (s : State) : (doReset s).wr = s.wr := rfl
@[simp] theorem doReset_phase (s : State) : (doReset s).phase = .postReset := rfl
@[simp] theorem doReset_errKind (s : State) : (doReset s).errKind = s.errKind := rfl
@[simp] theorem doReset_errCause (s : State) : (doReset s).errCause = s.errCause := rfl
@[simp] theorem doReset_cw (s : State) : (doReset s).cw = s.cw := rfl
@[simp] theorem doReset_c (s : State) : (doReset s).c = s.c := rfl
@[simp] theorem doReset_dict (s : State) : (doReset s).dict = s.dict := rfl
@[simp] theorem doReset_stk (s : State) : (doReset s).stk = s.stk := rfl
@[simp] theorem doReset_srcLen (s : State) : (doReset s).srcLen = s.srcLen := rfl
@[simp] theorem doReset_dstCap (s : State) : (doReset s).dstCap = s.dstCap := rfl
@[simp] theorem doReset_src (s : State) : (doReset s).src = s.src := rfl
@[simp] theorem doReset_dst (s : State) : (doReset s).dst = s.dst := rfl
@[simp] theorem doReset_hostQueue (s : State) : (doReset s).hostQueue = s.hostQueue := rfl
@[simp] theorem doReset_result (s : State) : (doReset s).result = s.result := rfl
@[simp] theorem doReset_draws (s : State) : (doReset s).draws = s.draws + 1 := rfl
@[simp] theorem doReset_tableSeed (s : State) : (doReset s).tableSeed = s.tableSeed := rfl

@[simp] theorem finish_cfg (s : State) : (finish s).cfg = s.cfg := rfl
@[simp] theorem finish_w (s : State) : (finish s).w = s.w := rfl
@[simp] theorem finish_d (s : State) : (finish s).d = s.d := rfl
@[simp] theorem finish_n (s : State) : (finish s).n = s.n := rfl
@[simp] theorem finish_pw (s : State) : (finish s).pw = s.pw := rfl
@[simp] theorem finish_bitpos (s : State) : (finish s).bitpos = s.bitpos := rfl
@[simp] theorem finish_wr (s : State) : (finish s).wr = s.wr := rfl
@[simp] theorem finish_phase (s : State) : (finish s).phase = .done := rfl
@[simp] theorem finish_errKind (s : State) : (finish s).errKind = s.errKind := rfl
@[simp] theorem finish_errCause (s : State) : (finish s).errCause = s.errCause := rfl
@[simp] theorem finish_cw (s : State) : (finish s).cw = s.cw := rfl
@[simp] theorem finish_c (s : State) : (finish s).c = s.c := rfl
@[simp] theorem finish_dict (s : State) : (finish s).dict = s.dict := rfl
@[simp] theorem finish_stk (s : State) : (finish s).stk = s.stk := rfl
@[simp] theorem finish_srcLen (s : State) : (finish s).srcLen = s.srcLen := rfl
@[simp] theorem finish_dstCap (s : State) : (finish s).dstCap = s.dstCap := rfl
@[simp] theorem finish_src (s : State) : (finish s).src = s.src := rfl
@[simp] theorem finish_dst (s : State) : (finish s).dst = s.dst := rfl
@[simp] theorem finish_hostQueue (s : State) : (finish s).hostQueue = s.hostQueue := rfl
@[simp] theorem finish_result (s : State) : (finish s).result = s.result := rfl
@[simp] theorem finish_draws (s : State) : (finish s).draws = s.draws := rfl
@[simp] theorem finish_tableSeed (s : State) : (finish s).tableSeed = s.tableSeed := rfl

@[simp] theorem startInvocation_cfg (s : State) : (startInvocation s).cfg = s.cfg := rfl
@[simp] theorem startInvocation_w (s : State) : (startInvocation s).w = .w9 := rfl
@[simp] theorem startInvocation_d (s : State) : (startInvocation s).d = Config.dInit := rfl
@[simp] theorem startInvocation_n (s : State) : (startInvocation s).n = Config.firstFree := rfl
@[simp] theorem startInvocation_pw (s : State) : (startInvocation s).pw = Config.freeCode s.draws := rfl
@[simp] theorem startInvocation_bitpos (s : State) : (startInvocation s).bitpos = 0 := rfl
@[simp] theorem startInvocation_wr (s : State) : (startInvocation s).wr = 0 := rfl
@[simp] theorem startInvocation_phase (s : State) : (startInvocation s).phase = .awaitingReset := rfl
@[simp] theorem startInvocation_errKind (s : State) : (startInvocation s).errKind = .noError := rfl
@[simp] theorem startInvocation_errCause (s : State) : (startInvocation s).errCause = .noError := rfl
@[simp] theorem startInvocation_cw (s : State) : (startInvocation s).cw = Config.freeCode (s.draws + 1) := rfl
@[simp] theorem startInvocation_c (s : State) : (startInvocation s).c = Config.freeByte s.draws := rfl
@[simp] theorem startInvocation_dict (s : State) : (startInvocation s).dict = [] := rfl
@[simp] theorem startInvocation_stk (s : State) : (startInvocation s).stk = [] := rfl
@[simp] theorem startInvocation_srcLen (s : State) : (startInvocation s).srcLen = s.srcLen := rfl
@[simp] theorem startInvocation_dstCap (s : State) : (startInvocation s).dstCap = s.dstCap := rfl
@[simp] theorem startInvocation_src (s : State) : (startInvocation s).src = s.src := rfl
@[simp] theorem startInvocation_dst (s : State) : (startInvocation s).dst = s.dst := rfl
@[simp] theorem startInvocation_hostQueue (s : State) : (startInvocation s).hostQueue = s.hostQueue := rfl
@[simp] theorem startInvocation_result (s : State) : (startInvocation s).result = .nothing := rfl
@[simp] theorem startInvocation_draws (s : State) : (startInvocation s).draws = s.draws + 2 := rfl
@[simp] theorem startInvocation_tableSeed (s : State) : (startInvocation s).tableSeed = s.draws := rfl

@[simp] theorem afterTail_cfg (s : State) : (afterTail s).cfg = s.cfg := rfl
@[simp] theorem afterTail_w (s : State) : (afterTail s).w = if s.d ≤ s.n + 1 ∧ s.w ≠ .w12 then widen s.w else s.w := rfl
@[simp] theorem afterTail_d (s : State) : (afterTail s).d = if s.d ≤ s.n + 1 ∧ s.w ≠ .w12 then 2 * s.d else s.d := rfl
@[simp] theorem afterTail_n (s : State) : (afterTail s).n = s.n + 1 := rfl
@[simp] theorem afterTail_pw (s : State) : (afterTail s).pw = s.cw := rfl
@[simp] theorem afterTail_bitpos (s : State) : (afterTail s).bitpos = s.bitpos := rfl
@[simp] theorem afterTail_wr (s : State) : (afterTail s).wr = s.wr := rfl
@[simp] theorem afterTail_phase (s : State) : (afterTail s).phase = s.phase := rfl
@[simp] theorem afterTail_errKind (s : State) : (afterTail s).errKind = s.errKind := rfl
@[simp] theorem afterTail_errCause (s : State) : (afterTail s).errCause = s.errCause := rfl
@[simp] theorem afterTail_cw (s : State) : (afterTail s).cw = s.cw := rfl
@[simp] theorem afterTail_c (s : State) : (afterTail s).c = s.c := rfl
@[simp] theorem afterTail_dict (s : State) : (afterTail s).dict = Store.set s.dict s.n { pfx := s.pw, byte := s.c } := rfl
@[simp] theorem afterTail_stk (s : State) : (afterTail s).stk = s.stk := rfl
@[simp] theorem afterTail_srcLen (s : State) : (afterTail s).srcLen = s.srcLen := rfl
@[simp] theorem afterTail_dstCap (s : State) : (afterTail s).dstCap = s.dstCap := rfl
@[simp] theorem afterTail_src (s : State) : (afterTail s).src = s.src := rfl
@[simp] theorem afterTail_dst (s : State) : (afterTail s).dst = s.dst := rfl
@[simp] theorem afterTail_hostQueue (s : State) : (afterTail s).hostQueue = s.hostQueue := rfl
@[simp] theorem afterTail_result (s : State) : (afterTail s).result = s.result := rfl
@[simp] theorem afterTail_draws (s : State) : (afterTail s).draws = s.draws := rfl
@[simp] theorem afterTail_tableSeed (s : State) : (afterTail s).tableSeed = s.tableSeed := rfl

@[simp] theorem afterOutput_cfg (bs : List Byte) (s : State) : (afterOutput bs s).cfg = s.cfg := rfl
@[simp] theorem afterOutput_w (bs : List Byte) (s : State) : (afterOutput bs s).w = s.w := rfl
@[simp] theorem afterOutput_d (bs : List Byte) (s : State) : (afterOutput bs s).d = s.d := rfl
@[simp] theorem afterOutput_n (bs : List Byte) (s : State) : (afterOutput bs s).n = s.n := rfl
@[simp] theorem afterOutput_pw (bs : List Byte) (s : State) : (afterOutput bs s).pw = s.pw := rfl
@[simp] theorem afterOutput_bitpos (bs : List Byte) (s : State) : (afterOutput bs s).bitpos = s.bitpos := rfl
@[simp] theorem afterOutput_wr (bs : List Byte) (s : State) : (afterOutput bs s).wr = s.wr + bs.length := rfl
@[simp] theorem afterOutput_phase (bs : List Byte) (s : State) : (afterOutput bs s).phase = s.phase := rfl
@[simp] theorem afterOutput_errKind (bs : List Byte) (s : State) : (afterOutput bs s).errKind = s.errKind := rfl
@[simp] theorem afterOutput_errCause (bs : List Byte) (s : State) : (afterOutput bs s).errCause = s.errCause := rfl
@[simp] theorem afterOutput_cw (bs : List Byte) (s : State) : (afterOutput bs s).cw = s.cw := rfl
@[simp] theorem afterOutput_c (bs : List Byte) (s : State) : (afterOutput bs s).c = s.c := rfl
@[simp] theorem afterOutput_dict (bs : List Byte) (s : State) : (afterOutput bs s).dict = s.dict := rfl
@[simp] theorem afterOutput_stk (bs : List Byte) (s : State) : (afterOutput bs s).stk = s.stk := rfl
@[simp] theorem afterOutput_srcLen (bs : List Byte) (s : State) : (afterOutput bs s).srcLen = s.srcLen := rfl
@[simp] theorem afterOutput_dstCap (bs : List Byte) (s : State) : (afterOutput bs s).dstCap = s.dstCap := rfl
@[simp] theorem afterOutput_src (bs : List Byte) (s : State) : (afterOutput bs s).src = s.src := rfl
@[simp] theorem afterOutput_dst (bs : List Byte) (s : State) : (afterOutput bs s).dst = writeString s.dst s.wr bs := rfl
@[simp] theorem afterOutput_hostQueue (bs : List Byte) (s : State) : (afterOutput bs s).hostQueue = s.hostQueue := rfl
@[simp] theorem afterOutput_result (bs : List Byte) (s : State) : (afterOutput bs s).result = s.result := rfl
@[simp] theorem afterOutput_draws (bs : List Byte) (s : State) : (afterOutput bs s).draws = s.draws := rfl
@[simp] theorem afterOutput_tableSeed (bs : List Byte) (s : State) : (afterOutput bs s).tableSeed = s.tableSeed := rfl

@[simp] theorem growOnce_cfg (s : State) : (growOnce s).cfg = s.cfg := by unfold growOnce; split <;> rfl
@[simp] theorem growOnce_w (s : State) : (growOnce s).w = if s.d ≤ s.n ∧ s.w ≠ .w12 then widen s.w else s.w := by unfold growOnce; split <;> rfl
@[simp] theorem growOnce_d (s : State) : (growOnce s).d = if s.d ≤ s.n ∧ s.w ≠ .w12 then 2 * s.d else s.d := by unfold growOnce; split <;> rfl
@[simp] theorem growOnce_n (s : State) : (growOnce s).n = s.n := by unfold growOnce; split <;> rfl
@[simp] theorem growOnce_pw (s : State) : (growOnce s).pw = s.pw := by unfold growOnce; split <;> rfl
@[simp] theorem growOnce_bitpos (s : State) : (growOnce s).bitpos = s.bitpos := by unfold growOnce; split <;> rfl
@[simp] theorem growOnce_wr (s : State) : (growOnce s).wr = s.wr := by unfold growOnce; split <;> rfl
@[simp] theorem growOnce_phase (s : State) : (growOnce s).phase = s.phase := by unfold growOnce; split <;> rfl
@[simp] theorem growOnce_errKind (s : State) : (growOnce s).errKind = s.errKind := by unfold growOnce; split <;> rfl
@[simp] theorem growOnce_errCause (s : State) : (growOnce s).errCause = s.errCause := by unfold growOnce; split <;> rfl
@[simp] theorem growOnce_cw (s : State) : (growOnce s).cw = s.cw := by unfold growOnce; split <;> rfl
@[simp] theorem growOnce_c (s : State) : (growOnce s).c = s.c := by unfold growOnce; split <;> rfl
@[simp] theorem growOnce_dict (s : State) : (growOnce s).dict = s.dict := by unfold growOnce; split <;> rfl
@[simp] theorem growOnce_stk (s : State) : (growOnce s).stk = s.stk := by unfold growOnce; split <;> rfl
@[simp] theorem growOnce_srcLen (s : State) : (growOnce s).srcLen = s.srcLen := by unfold growOnce; split <;> rfl
@[simp] theorem growOnce_dstCap (s : State) : (growOnce s).dstCap = s.dstCap := by unfold growOnce; split <;> rfl
@[simp] theorem growOnce_src (s : State) : (growOnce s).src = s.src := by unfold growOnce; split <;> rfl
@[simp] theorem growOnce_dst (s : State) : (growOnce s).dst = s.dst := by unfold growOnce; split <;> rfl
@[simp] theorem growOnce_hostQueue (s : State) : (growOnce s).hostQueue = s.hostQueue := by unfold growOnce; split <;> rfl
@[simp] theorem growOnce_result (s : State) : (growOnce s).result = s.result := by unfold growOnce; split <;> rfl
@[simp] theorem growOnce_draws (s : State) : (growOnce s).draws = s.draws := by unfold growOnce; split <;> rfl
@[simp] theorem growOnce_tableSeed (s : State) : (growOnce s).tableSeed = s.tableSeed := by unfold growOnce; split <;> rfl

@[simp] theorem endStep_cfg (s : State) : (endStep s).cfg = s.cfg := by unfold endStep; split <;> rfl
@[simp] theorem endStep_w (s : State) : (endStep s).w = s.w := by unfold endStep; split <;> rfl
@[simp] theorem endStep_d (s : State) : (endStep s).d = s.d := by unfold endStep; split <;> rfl
@[simp] theorem endStep_n (s : State) : (endStep s).n = s.n := by unfold endStep; split <;> rfl
@[simp] theorem endStep_pw (s : State) : (endStep s).pw = s.pw := by unfold endStep; split <;> rfl
@[simp] theorem endStep_bitpos (s : State) : (endStep s).bitpos = s.bitpos := by unfold endStep; split <;> rfl
@[simp] theorem endStep_wr (s : State) : (endStep s).wr = s.wr := by unfold endStep; split <;> rfl
@[simp] theorem endStep_phase (s : State) : (endStep s).phase = s.phase := by unfold endStep; split <;> rfl
@[simp] theorem endStep_errKind (s : State) : (endStep s).errKind = s.errKind := by unfold endStep; split <;> rfl
@[simp] theorem endStep_errCause (s : State) : (endStep s).errCause = s.errCause := by unfold endStep; split <;> rfl
@[simp] theorem endStep_cw (s : State) : (endStep s).cw = if s.phase.isRunning then Config.freeCode s.draws else s.cw := by unfold endStep; split <;> rfl
@[simp] theorem endStep_c (s : State) : (endStep s).c = if s.phase.isRunning then Config.freeByte s.draws else s.c := by unfold endStep; split <;> rfl
@[simp] theorem endStep_dict (s : State) : (endStep s).dict = s.dict := by unfold endStep; split <;> rfl
@[simp] theorem endStep_stk (s : State) : (endStep s).stk = s.stk := by unfold endStep; split <;> rfl
@[simp] theorem endStep_srcLen (s : State) : (endStep s).srcLen = s.srcLen := by unfold endStep; split <;> rfl
@[simp] theorem endStep_dstCap (s : State) : (endStep s).dstCap = s.dstCap := by unfold endStep; split <;> rfl
@[simp] theorem endStep_src (s : State) : (endStep s).src = s.src := by unfold endStep; split <;> rfl
@[simp] theorem endStep_dst (s : State) : (endStep s).dst = s.dst := by unfold endStep; split <;> rfl
@[simp] theorem endStep_hostQueue (s : State) : (endStep s).hostQueue = s.hostQueue := by unfold endStep; split <;> rfl
@[simp] theorem endStep_result (s : State) : (endStep s).result = s.result := by unfold endStep; split <;> rfl
@[simp] theorem endStep_draws (s : State) : (endStep s).draws = if s.phase.isRunning then s.draws + 1 else s.draws := by unfold endStep; split <;> rfl
@[simp] theorem endStep_tableSeed (s : State) : (endStep s).tableSeed = s.tableSeed := by unfold endStep; split <;> rfl

/-- Consecutive updates of one field are the last one. -/
@[simp] theorem withStack_withStack (l l' : List Byte) (s : State) : withStack l (withStack l' s) = withStack l s := rfl

@[simp] theorem withFirst_withFirst (b b' : Byte) (s : State) : withFirst b (withFirst b' s) = withFirst b s := rfl

@[simp] theorem latch_latch (k k' : Code) (s : State) : latch k (latch k' s) = latch k s := rfl

@[simp] theorem withStack_self (s : State) : withStack s.stk s = s := rfl

@[simp] theorem latch_self (s : State) : latch s.cw s = s := rfl

end Sys2Proof.Machine
end

