-- ==== Sys2Proof/Laws/Store.lean ====
section
/-! SUPPORT. The laws of the sparse stores: read after write, and the canonical form is kept. -/

namespace Sys2Proof.Machine

variable {α : Type}

theorem Store.get?_set_self (m : List (Nat × α)) (a : Nat) (x : α) : Store.get? (Store.set m a x) a = some x := by
  induction m with
  | nil => simp [Store.set, Store.get?]
  | cons h t ih =>
    obtain ⟨k, v⟩ := h
    simp only [Store.set]
    split
    · simp [Store.get?]
    · split
      · simp [Store.get?]
      · rename_i h1 h2
        simp [Store.get?, Ne.symm h2, ih]

theorem Store.get?_set_ne (m : List (Nat × α)) {a b : Nat} (x : α) (h : b ≠ a) :
    Store.get? (Store.set m a x) b = Store.get? m b := by
  induction m with
  | nil => simp [Store.set, Store.get?, Ne.symm h]
  | cons p t ih =>
    obtain ⟨k, v⟩ := p
    simp only [Store.set]
    split
    · simp [Store.get?, Ne.symm h]
    · split
      · rename_i h2
        subst h2
        simp [Store.get?, Ne.symm h]
      · simp [Store.get?, ih]

theorem Store.risingFrom_set {lo : Nat} (m : List (Nat × α)) {a : Nat} (x : α) (hlo : lo ≤ a)
    (h : Store.risingFrom lo m = true) : Store.risingFrom lo (Store.set m a x) = true := by
  induction m generalizing lo with
  | nil => simp [Store.set, Store.risingFrom, hlo]
  | cons p t ih =>
    obtain ⟨k, v⟩ := p
    simp only [Store.risingFrom, Bool.and_eq_true, decide_eq_true_eq] at h
    simp only [Store.set]
    split
    · simp [Store.risingFrom, hlo, h.2]
      omega
    · split
      · rename_i h2
        subst h2
        simp [Store.risingFrom, hlo, h.2]
      · simp only [Store.risingFrom, Bool.and_eq_true, decide_eq_true_eq]
        exact ⟨h.1, ih (by omega) h.2⟩

theorem Memory.read_write_self (m : Memory) (a : Nat) (b : Byte) : (m.write a b).read a = some b :=
  Store.get?_set_self m a b

theorem Memory.read_write_ne (m : Memory) {a i : Nat} (b : Byte) (h : i ≠ a) : (m.write a b).read i = m.read i :=
  Store.get?_set_ne m b h

/-- The one operation on memories keeps the canonical form. -/
theorem Memory.write_wf (m : Memory) (a : Nat) (b : Byte) (h : m.wf = true) : (m.write a b).wf = true :=
  Store.risingFrom_set m b (Nat.zero_le a) h

/-- The one operation on the dictionary table keeps the canonical form. -/
theorem DictTable.set_wf (t : DictTable) {i : Nat} (e : DictEntry) (hi : Config.firstFree ≤ i) (h : t.wf = true) :
    DictTable.wf (Store.set t i e) = true :=
  Store.risingFrom_set t e hi h

theorem reset_src_wf : State.reset.src.wf = true := rfl

theorem reset_dst_wf : State.reset.dst.wf = true := rfl

theorem reset_dict_wf : State.reset.dict.wf = true := rfl

/-- A canonical store lists nothing below its bound. -/
theorem Store.get?_below {lo : Nat} (m : List (Nat × α)) {a : Nat} (h : Store.risingFrom lo m = true) (ha : a < lo) :
    Store.get? m a = none := by
  induction m generalizing lo with
  | nil => rfl
  | cons p t ih =>
    obtain ⟨k, v⟩ := p
    simp only [Store.risingFrom, Bool.and_eq_true, decide_eq_true_eq] at h
    have hk : k ≠ a := by omega
    simp only [Store.get?, hk, if_false]
    exact ih h.2 (by omega)

/-- Two canonical stores that read alike are the same list: equal contents are equal data. -/
theorem Store.ext_of_rising {lo : Nat} (m m' : List (Nat × α)) (h : Store.risingFrom lo m = true)
    (h' : Store.risingFrom lo m' = true) (hr : ∀ a, Store.get? m a = Store.get? m' a) : m = m' := by
  induction m generalizing lo m' with
  | nil =>
    cases m' with
    | nil => rfl
    | cons p t => simpa [Store.get?] using hr p.1
  | cons p t ih =>
    obtain ⟨k, v⟩ := p
    cases m' with
    | nil => simpa [Store.get?] using hr k
    | cons q t' =>
      obtain ⟨k', v'⟩ := q
      simp only [Store.risingFrom, Bool.and_eq_true, decide_eq_true_eq] at h h'
      have hk : k = k' := by
        by_contra hne
        rcases Nat.lt_or_gt_of_ne hne with hlt | hlt
        · have := hr k
          simp [Store.get?, Ne.symm hne, Store.get?_below t' h'.2 (by omega : k < k' + 1)] at this
        · have := hr k'
          simp [Store.get?, hne, Store.get?_below t h.2 (by omega : k' < k + 1)] at this
      subst hk
      have hv : v = v' := by simpa [Store.get?] using hr k
      subst hv
      rw [ih t' h.2 h'.2 fun a => ?_]
      by_cases ha : k = a
      · subst ha
        rw [Store.get?_below t h.2 (by omega), Store.get?_below t' h'.2 (by omega)]
      · simpa [Store.get?, ha] using hr a

end Sys2Proof.Machine
end

