-- ==== Sys2Proof/Laws/Ops.lean ====
section
/-! SUPPORT. One lemma per shared operation that says everything it can do: the result type, the BitReader, the
Dictionary, the ExpansionStack and the output primitive. -/

namespace Sys2Proof.Machine

/-! ## Results -/

section Results
variable {α β : Type}

@[simp] theorem Res.ok_bind (a : α) (s : State) (k : α → State → Res β) : (Res.ok a s).bind k = k a s := rfl

@[simp] theorem Res.raised_bind (s : State) (k : α → State → Res β) : (Res.raised s).bind k = .raised s := rfl

@[simp] theorem Res.fault_bind (f : Fault) (k : α → State → Res β) : (Res.fault f).bind k = .fault f := rfl

@[simp] theorem Res.refused_bind (q : Refusal) (k : α → State → Res β) : (Res.refused q).bind k = .refused q := rfl

@[simp] theorem Res.ok_outcome (a : α) (s : State) : (Res.ok a s).outcome = .next s := rfl

@[simp] theorem Res.raised_outcome (s : State) : (Res.raised s : Res α).outcome = .next s := rfl

@[simp] theorem Res.fault_outcome (f : Fault) : (Res.fault f : Res α).outcome = .fault f := rfl

@[simp] theorem Res.refused_outcome (q : Refusal) : (Res.refused q : Res α).outcome = .refused q := rfl

/-- A sequence that ends with a value ran both parts. -/
theorem Res.bind_eq_ok {r : Res α} {k : α → State → Res β} {b : β} {t : State} (h : r.bind k = .ok b t) :
    ∃ a s, r = .ok a s ∧ k a s = .ok b t := by
  cases r with
  | ok a s => exact ⟨a, s, rfl, h⟩
  | raised s => cases h
  | fault f => cases h
  | refused q => cases h

/-- A sequence that ends with a raised fault raised it in the first part, or in the second. -/
theorem Res.bind_eq_raised {r : Res α} {k : α → State → Res β} {t : State} (h : r.bind k = .raised t) :
    r = .raised t ∨ ∃ a s, r = .ok a s ∧ k a s = .raised t := by
  cases r with
  | ok a s => exact .inr ⟨a, s, rfl, h⟩
  | raised s => exact .inl (by cases h; rfl)
  | fault f => cases h
  | refused q => cases h

/-- An outcome is a next state exactly when the operation ended with a value or a raised fault. -/
theorem Res.outcome_eq_next {r : Res α} {t : State} (h : r.outcome = .next t) : (∃ a, r = .ok a t) ∨ r = .raised t := by
  cases r with
  | ok a s => cases h; exact .inl ⟨a, rfl⟩
  | raised s => cases h; exact .inr rfl
  | fault f => cases h
  | refused q => cases h

end Results

/-- A mapped outcome is a next state exactly when the outcome is. -/
theorem onNext_eq_next {f : State → State} {o : Host.Outcome State Fault Refusal} {t : State}
    (h : onNext f o = .next t) : ∃ s, o = .next s ∧ t = f s := by
  cases o with
  | next s => cases h; exact ⟨s, rfl, rfl⟩
  | fault r => cases h
  | refused r => cases h

/-! ## The BitReader -/

/-- A byte is fetched where it is placed, and beyond `SRC_LEN` in any case. -/
theorem fetchByte_some {s : State} {a : Nat} {b : Byte} (h : srcByte s a = some b) : fetchByte a s = .ok b s := by
  simp [fetchByte, h]

theorem fetchByte_none {s : State} {a : Nat} (h : srcByte s a = none) :
    fetchByte a s = .fault (.sourceByteUnwritten a) := by
  simp [fetchByte, h]

/-- A read that is not admitted raises `SOURCE_EXHAUSTED` (R122). -/
theorem brRead_exhausted {s : State} (h : ¬ Admitted s) :
    brRead s = .raised (takeFault .bufferOverrun .sourceExhausted s) := by
  have : 8 * s.srcLen < s.bitpos + s.w.bits := by simpa [Admitted] using h
  simp [brRead, this, raise]

/-- An admitted read whose window bytes are placed (R120). -/
theorem brRead_admitted {s : State} {b0 b1 b2 : Byte} (h : Admitted s) (h0 : srcByte s (s.bitpos / 8) = some b0)
    (h1 : srcByte s (s.bitpos / 8 + 1) = some b1) (h2 : srcByte s (s.bitpos / 8 + 2) = some b2) :
    brRead s = .ok (codewordAt (windowOf b0 b1 b2) (s.bitpos % 8) s.w)
      (consume (codewordAt (windowOf b0 b1 b2) (s.bitpos % 8) s.w) s) := by
  have hn : ¬ 8 * s.srcLen < s.bitpos + s.w.bits := by simpa [Admitted] using h
  simp [brRead, hn, fetchByte_some h0, fetchByte_some h1, fetchByte_some h2]

/-- Everything `BR.READ` can do. -/
theorem brRead_cases (s : State) :
    (¬ Admitted s ∧ brRead s = .raised (takeFault .bufferOverrun .sourceExhausted s)) ∨
    (Admitted s ∧ ∃ b0 b1 b2, srcByte s (s.bitpos / 8) = some b0 ∧ srcByte s (s.bitpos / 8 + 1) = some b1 ∧
      srcByte s (s.bitpos / 8 + 2) = some b2 ∧
      brRead s = .ok (codewordAt (windowOf b0 b1 b2) (s.bitpos % 8) s.w)
        (consume (codewordAt (windowOf b0 b1 b2) (s.bitpos % 8) s.w) s)) ∨
    (Admitted s ∧ ∃ a, srcByte s a = none ∧ brRead s = .fault (.sourceByteUnwritten a)) := by
  by_cases h : Admitted s
  · have hn : ¬ 8 * s.srcLen < s.bitpos + s.w.bits := by simpa [Admitted] using h
    refine .inr ?_
    cases h0 : srcByte s (s.bitpos / 8) with
    | none => exact .inr ⟨h, _, h0, by simp [brRead, hn, fetchByte_none h0]⟩
    | some b0 =>
      cases h1 : srcByte s (s.bitpos / 8 + 1) with
      | none => exact .inr ⟨h, _, h1, by simp [brRead, hn, fetchByte_some h0, fetchByte_none h1]⟩
      | some b1 =>
        cases h2 : srcByte s (s.bitpos / 8 + 2) with
        | none =>
          exact .inr ⟨h, _, h2, by simp [brRead, hn, fetchByte_some h0, fetchByte_some h1, fetchByte_none h2]⟩
        | some b2 => exact .inl ⟨h, b0, b1, b2, rfl, rfl, rfl, brRead_admitted h h0 h1 h2⟩
  · exact .inl ⟨h, brRead_exhausted h⟩

/-- Where the host has placed the whole source, every byte of a window reads. -/
theorem srcByte_placed {s : State} (h : SourcePlaced s) (a : Nat) : ∃ b, srcByte s a = some b := by
  unfold srcByte
  split
  · exact h a ‹_›
  · exact ⟨_, rfl⟩

/-! ## The Dictionary -/

theorem dictAdd_room {p : Code} {b : Byte} {s : State} (h : s.n < s.cfg.dictLimit) :
    dictAdd p b s = .ok s.n (addEntry p b s) := by
  simp [dictAdd, Nat.not_le.mpr h]

theorem dictAdd_full {p : Code} {b : Byte} {s : State} (h : s.cfg.dictLimit ≤ s.n) :
    dictAdd p b s = .raised (takeFault .internalLimitExceeded .dictFull s) := by
  simp [dictAdd, h, raise]

/-- A listed element is read as it was written. -/
theorem dictRead_listed {s : State} {i : Nat} {e : DictEntry} (h : Store.get? s.dict i = some e) : dictRead s i = e := by
  simp [dictRead, h]

/-- Reading the dictionary depends on the table alone. -/
theorem dictRead_congr {s t : State} (hd : s.dict = t.dict) (hs : s.tableSeed = t.tableSeed) (i : Nat) :
    dictRead s i = dictRead t i := by
  simp [dictRead, hd, hs]

/-! ## The output primitive -/

theorem emit_room {b : Byte} {s : State} (h : s.wr < s.dstCap) :
    emit b s = .ok () (putByte b s) := by
  simp [emit, Nat.not_le.mpr h]

theorem emit_full {b : Byte} {s : State} (h : s.dstCap ≤ s.wr) :
    emit b s = .raised (takeFault .bufferOverrun .destFull s) := by
  simp [emit, h, raise]

/-! ## Output strings -/

@[simp] theorem writeString_nil (m : Memory) (a : Nat) : writeString m a [] = m := rfl

@[simp] theorem writeString_cons (m : Memory) (a : Nat) (b : Byte) (l : List Byte) :
    writeString m a (b :: l) = writeString (m.write a b) (a + 1) l := rfl

theorem writeString_append (m : Memory) (a : Nat) (l l' : List Byte) :
    writeString m a (l ++ l') = writeString (writeString m a l) (a + l.length) l' := by
  induction l generalizing m a with
  | nil => rfl
  | cons b l ih =>
    simp only [List.cons_append, writeString_cons, ih, List.length_cons]
    congr 1
    omega

/-- A string leaves every address outside it alone. -/
theorem writeString_read_outside (m : Memory) (a : Nat) (l : List Byte) {i : Nat} (h : i < a ∨ a + l.length ≤ i) :
    (writeString m a l).read i = m.read i := by
  induction l generalizing m a with
  | nil => rfl
  | cons b l ih =>
    simp only [List.length_cons] at h
    rw [writeString_cons, ih _ _ (by omega), Memory.read_write_ne _ _ (by omega)]

/-- A string reads back, byte for byte. -/
theorem writeString_read_inside (m : Memory) (a : Nat) (l : List Byte) {j : Nat} (h : j < l.length) :
    (writeString m a l).read (a + j) = some l[j] := by
  induction l generalizing m a j with
  | nil => simp at h
  | cons b l ih =>
    cases j with
    | zero =>
      rw [writeString_cons, writeString_read_outside _ _ _ (by omega)]
      simpa using Memory.read_write_self m a b
    | succ j =>
      simp only [List.length_cons] at h
      have := ih (m.write a b) (a + 1) (j := j) (by omega)
      rw [writeString_cons, show a + (j + 1) = a + 1 + j by omega, this]
      rfl

theorem writeString_wf (m : Memory) (a : Nat) (l : List Byte) (h : m.wf = true) : (writeString m a l).wf = true := by
  induction l generalizing m a with
  | nil => exact h
  | cons b l ih => exact ih _ _ (Memory.write_wf m a b h)

/-! ## The ExpansionStack -/

theorem stkPush_room {b : Byte} {s : State} (h : s.stk.length < s.cfg.stackDepth) :
    stkPush b s = .ok () (withStack (b :: s.stk) s) := by
  simp [stkPush, State.sp, Nat.not_le.mpr h]

theorem stkPush_full {b : Byte} {s : State} (h : s.cfg.stackDepth ≤ s.stk.length) :
    stkPush b s = .raised (takeFault .internalLimitExceeded .stackFull s) := by
  simp [stkPush, State.sp, h, raise]

/-- `STK_TOP` on a stack that holds a byte. -/
theorem stkTop_cons {b : Byte} {rest : List Byte} {s : State} (h : s.stk = b :: rest) : stkTop s = .ok b s := by
  simp [stkTop, h]

theorem afterOutput_nil (s : State) : afterOutput [] s = s := rfl

theorem afterOutput_cons (b : Byte) (l : List Byte) (s : State) :
    afterOutput (b :: l) s = afterOutput l (putByte b s) := by
  simp only [afterOutput, putByte, writeString_cons, List.length_cons]
  congr 1
  omega

/-- Everything `FLUSH` can do: the whole stack is written where it fits; otherwise the bytes that fit are written, the
next one has been popped, and the rest stay on the stack (R146). -/
theorem flushBytes_spec (l : List Byte) (s : State) :
    flushBytes l s =
      if s.wr + l.length ≤ s.dstCap ∨ l = [] then .ok () (withStack [] (afterOutput l s))
      else .raised (takeFault .bufferOverrun .destFull
        (withStack (l.drop (s.dstCap - s.wr + 1)) (afterOutput (l.take (s.dstCap - s.wr)) s))) := by
  induction l generalizing s with
  | nil => simp [flushBytes, afterOutput_nil]
  | cons b l ih =>
    rw [flushBytes]
    by_cases h : s.wr < s.dstCap
    · obtain ⟨m, hm⟩ : ∃ m, s.dstCap - s.wr = m + 1 := ⟨s.dstCap - s.wr - 1, by omega⟩
      have hm' : s.dstCap - (s.wr + 1) = m := by omega
      rw [emit_room (s := withStack l s) h, Res.ok_bind, ih]
      simp only [List.length_cons, hm, List.take_succ_cons, List.drop_succ_cons, afterOutput_cons, putByte_wr,
        putByte_dstCap, withStack_wr, withStack_dstCap, hm', reduceCtorEq, or_false]
      by_cases h' : s.wr + (l.length + 1) ≤ s.dstCap
      · rw [if_pos h', if_pos (.inl (by omega))]
        rfl
      · rw [if_neg h', if_neg]
        · rfl
        · rintro (h'' | rfl)
          · omega
          · simp at h'
            omega
    · rw [emit_full (s := withStack l s) (by simpa using h), if_neg]
      · have h0 : s.dstCap - s.wr = 0 := by omega
        simp only [h0, List.take_zero, afterOutput_nil, Nat.zero_add, List.drop_succ_cons, List.drop_zero]
        rfl
      · simp only [List.length_cons, reduceCtorEq, or_false]
        omega

theorem flush_spec (s : State) :
    flush s =
      if s.wr + s.stk.length ≤ s.dstCap ∨ s.stk = [] then .ok () (withStack [] (afterOutput s.stk s))
      else .raised (takeFault .bufferOverrun .destFull
        (withStack (s.stk.drop (s.dstCap - s.wr + 1)) (afterOutput (s.stk.take (s.dstCap - s.wr)) s))) :=
  flushBytes_spec s.stk s

/-- Strings depend on the dictionary alone. -/
theorem chainString_congr {s t : State} (hd : s.dict = t.dict) (hs : s.tableSeed = t.tableSeed) (fuel : Nat) (k : Code) :
    chainString s fuel k = chainString t fuel k := by
  induction fuel generalizing k with
  | zero => rfl
  | succ f ih => simp [chainString, dictRead_congr hd hs, ih]

/-- A walk along a chain can only push, or raise one of two faults with some bytes pushed. -/
theorem chainWalk_cases (fuel bound : Nat) (k : Code) (s : State) :
    (∃ l, l ≠ [] ∧ chainWalk fuel bound k s = .ok () (withStack (l ++ s.stk) s)) ∨
    (∃ l, chainWalk fuel bound k s = .raised (takeFault .corruptStream .chainInconsistent (withStack (l ++ s.stk) s))) ∨
    (∃ l, s.cfg.stackDepth ≤ l.length + s.stk.length ∧
      chainWalk fuel bound k s = .raised (takeFault .internalLimitExceeded .stackFull (withStack (l ++ s.stk) s))) := by
  induction fuel generalizing bound k s with
  | zero => exact .inr (.inl ⟨[], rfl⟩)
  | succ f ih =>
    rw [chainWalk]
    split
    · split
      · exact .inr (.inl ⟨[], rfl⟩)
      · by_cases hp : s.stk.length < s.cfg.stackDepth
        · rw [stkPush_room hp, Res.ok_bind]
          rcases ih k.toNat (dictRead s k.toNat).pfx (withStack ((dictRead s k.toNat).byte :: s.stk) s) with
            ⟨l, hl, h⟩ | ⟨l, h⟩ | ⟨l, hl, h⟩
          · exact .inl ⟨l ++ [(dictRead s k.toNat).byte], by simp, by simpa using h⟩
          · exact .inr (.inl ⟨l ++ [(dictRead s k.toNat).byte], by simpa using h⟩)
          · refine .inr (.inr ⟨l ++ [(dictRead s k.toNat).byte], ?_, by simpa using h⟩)
            simp at hl ⊢
            omega
        · rw [stkPush_full (Nat.not_lt.mp hp)]
          exact .inr (.inr ⟨[], by simpa using hp, rfl⟩)
    · split
      · exact .inr (.inl ⟨[], rfl⟩)
      · by_cases hp : s.stk.length < s.cfg.stackDepth
        · rw [stkPush_room hp]
          exact .inl ⟨[litByte k], by simp, rfl⟩
        · rw [stkPush_full (Nat.not_lt.mp hp)]
          exact .inr (.inr ⟨[], by simpa using hp, rfl⟩)

/-- The element a live composite code names: its prefix is below it and has a string. -/
theorem LiveChain.entry {s : State} (h : LiveChain s) {k : Code} (hk : Config.firstFree ≤ k.toNat) (hn : k.toNat < s.n) :
    (dictRead s k.toNat).pfx.toNat < k.toNat ∧
      ((dictRead s k.toNat).pfx.toNat ≤ 0xFF ∨ Config.firstFree ≤ (dictRead s k.toNat).pfx.toNat) := by
  obtain ⟨e, he, hlt, hc⟩ := h k.toNat hk hn (by omega)
  rw [dictRead_listed he]
  refine ⟨hlt, ?_⟩
  simp only [Code.isControl, Bool.or_eq_false_iff, decide_eq_false_iff_not] at hc
  have h0 : e.pfx.toNat ≠ 0x100 := fun h => hc.1 (BitVec.eq_of_toNat_eq (by simpa [Config.codeReset] using h))
  have h1 : e.pfx.toNat ≠ 0x101 := fun h => hc.2 (BitVec.eq_of_toNat_eq (by simpa [Config.codeEnd] using h))
  simp only [Config.firstFree]
  omega

/-- The last `m` bytes of a string. -/
theorem lastBytes_append_one (m : Nat) (l : List Byte) (b : Byte) (h : m ≤ l.length) :
    lastBytes (m + 1) (l ++ [b]) = lastBytes m l ++ [b] := by
  simp only [lastBytes, List.length_append, List.length_singleton]
  rw [List.drop_append_of_le_length (by omega)]
  congr 2
  omega

/-- The walk along a live chain: the string of the codeword lands on the stack, first byte on top, where it fits;
otherwise the last bytes of the string that fit have been pushed (R145, R148). -/
theorem chainWalk_live (fuel bound : Nat) (k : Code) (s : State) (hf : k.toNat < fuel) (hb : bound ≤ s.n)
    (hk : k.toNat ≤ 0xFF ∨ (Config.firstFree ≤ k.toNat ∧ k.toNat < bound)) (hc : LiveChain s)
    (hsp : s.stk.length ≤ s.cfg.stackDepth) :
    chainWalk fuel bound k s =
      if s.stk.length + (chainString s fuel k).length ≤ s.cfg.stackDepth then
        .ok () (withStack (chainString s fuel k ++ s.stk) s)
      else .raised (takeFault .internalLimitExceeded .stackFull
        (withStack (lastBytes (s.cfg.stackDepth - s.stk.length) (chainString s fuel k) ++ s.stk) s)) := by
  induction fuel generalizing bound k s with
  | zero => omega
  | succ f ih =>
    rw [chainWalk, chainString]
    by_cases hlit : k.toNat ≤ 0xFF
    · have h1 : ¬ Config.firstFree ≤ k.toNat := by simp only [Config.firstFree]; omega
      have h2 : ¬ 0x100 ≤ k.toNat := by omega
      simp only [h1, h2, if_false, List.length_singleton]
      by_cases hp : s.stk.length < s.cfg.stackDepth
      · simp [stkPush_room hp, show s.stk.length + 1 ≤ s.cfg.stackDepth by omega]
      · have h0 : s.cfg.stackDepth - s.stk.length = 0 := by omega
        simp [stkPush_full (Nat.not_lt.mp hp), h0, lastBytes, show ¬ s.stk.length + 1 ≤ s.cfg.stackDepth by omega]
    · obtain ⟨hk1, hk2⟩ := hk.resolve_left hlit
      obtain ⟨hlt, hpk⟩ := hc.entry hk1 (by omega)
      simp only [hk1, if_true, Nat.not_le.mpr hk2, if_false, List.length_append, List.length_singleton]
      by_cases hp : s.stk.length < s.cfg.stackDepth
      · rw [stkPush_room hp, Res.ok_bind,
          ih k.toNat (dictRead s k.toNat).pfx (withStack ((dictRead s k.toNat).byte :: s.stk) s) (by omega)
            (by simpa using by omega) (hpk.imp_right fun h => ⟨h, hlt⟩) hc (by simpa using hp)]
        rw [chainString_congr (s := (withStack ((dictRead s k.toNat).byte :: s.stk) s)) (t := s) rfl rfl]
        simp only [withStack_stk, withStack_cfg, withStack_withStack, List.length_cons]
        generalize chainString s f (dictRead s k.toNat).pfx = l
        by_cases hfit : s.stk.length + (l.length + 1) ≤ s.cfg.stackDepth
        · simp [hfit, show s.stk.length + 1 + l.length ≤ s.cfg.stackDepth by omega]
        · rw [show s.cfg.stackDepth - s.stk.length = s.cfg.stackDepth - (s.stk.length + 1) + 1 by omega,
            lastBytes_append_one _ _ _ (by omega)]
          simp [hfit, show ¬ s.stk.length + 1 + l.length ≤ s.cfg.stackDepth by omega]
      · have h0 : s.cfg.stackDepth - s.stk.length = 0 := by omega
        simp [stkPush_full (Nat.not_lt.mp hp), h0, lastBytes,
          show ¬ s.stk.length + ((chainString s f (dictRead s k.toNat).pfx).length + 1) ≤ s.cfg.stackDepth by omega]

end Sys2Proof.Machine
end

