-- ==== Sys2Proof/Laws/Codewords.lean ====
section
/-! SUPPORT. What a data codeword can do (`44_decoder_data.md`), once for every state and once where the dictionary is
live; and what static decoding gives, by the value of the codeword (`30_encoding.md` R96). -/

namespace Sys2Proof.Machine

/-! ## Every state -/

/-- The shape of a state in which a data codeword has faulted: some output written, some stack left, `C` perhaps set,
and the fault record. The dictionary, `N`, `W`, `D` and `PW` are as before. -/
def Faulted (s t : State) : Prop :=
  ∃ kd ce bytes l b, t = takeFault kd ce (withStack l (withFirst b (afterOutput bytes s))) ∧ ce.kind = kd ∧
    ce ∉ [ErrCause.noError, .shortWrite] ∧ (s.wr + bytes.length ≤ s.dstCap ∨ bytes = [])

/-- The shape of a state that a data codeword leaves: a nonempty string written, the element added, `PW` moved on. -/
def Completed (s t : State) : Prop :=
  ∃ b bytes, t = afterTail (withStack [] (withFirst b (afterOutput (b :: bytes) s))) ∧
    s.wr + (b :: bytes).length ≤ s.dstCap ∧ s.n < s.cfg.dictLimit

theorem Faulted.intro {s : State} (kd : ErrKind) (ce : ErrCause) (bytes l : List Byte) (b : Byte) (hk : ce.kind = kd)
    (hn : ce ∉ [ErrCause.noError, .shortWrite]) (hb : s.wr + bytes.length ≤ s.dstCap ∨ bytes = []) :
    Faulted s (takeFault kd ce (withStack l (withFirst b (afterOutput bytes s)))) :=
  ⟨kd, ce, bytes, l, b, rfl, hk, hn, hb⟩

/-- Updates of different fields commute. -/
theorem afterOutput_withStack (bs l : List Byte) (s : State) :
    afterOutput bs (withStack l s) = withStack l (afterOutput bs s) := rfl

theorem afterOutput_withFirst (bs : List Byte) (b : Byte) (s : State) :
    afterOutput bs (withFirst b s) = withFirst b (afterOutput bs s) := rfl

theorem withFirst_withStack (l : List Byte) (b : Byte) (s : State) :
    withFirst b (withStack l s) = withStack l (withFirst b s) := rfl

/-- One more byte after a string. -/
theorem putByte_afterOutput (b : Byte) (bs : List Byte) (s : State) :
    putByte b (afterOutput bs s) = afterOutput (bs ++ [b]) s := by
  simp [afterOutput, putByte, writeString_append, Nat.add_assoc]

/-- Expanding and flushing, in any state: a nonempty string is written and `C` is its first byte, or a fault is
raised. -/
theorem emitString_cases (k : Code) (s : State) :
    (∃ b bytes, emitString k s = .ok () (withStack [] (withFirst b (afterOutput (b :: bytes) s))) ∧
      s.wr + (b :: bytes).length ≤ s.dstCap) ∨
    (∃ t, emitString k s = .raised t ∧ Faulted s t) := by
  rcases chainWalk_cases (k.toNat + 1) s.n k s with ⟨l, hl, h⟩ | ⟨l, h⟩ | ⟨l, _, h⟩
  · obtain ⟨b, rest, rfl⟩ := List.exists_cons_of_ne_nil hl
    have htop : stkTop (withStack (b :: rest ++ s.stk) s) = .ok b (withStack (b :: rest ++ s.stk) s) :=
      stkTop_cons (rest := rest ++ s.stk) rfl
    simp only [emitString, expand, h, Res.ok_bind, htop]
    rw [flush_spec]
    by_cases hfit : s.wr + (b :: (rest ++ s.stk)).length ≤ s.dstCap
    · left
      refine ⟨b, rest ++ s.stk, ?_, hfit⟩
      rw [if_pos (.inl (by simpa using hfit))]
      rfl
    · right
      rw [if_neg (by simpa using hfit)]
      refine ⟨_, rfl, .bufferOverrun, .destFull, _, _, b, rfl, rfl, by decide, ?_⟩
      by_cases hw : s.wr ≤ s.dstCap
      · left
        simp
        omega
      · right
        have : s.dstCap - s.wr = 0 := by omega
        simp [this]
  · right
    exact ⟨_, show emitString k s = _ by simp only [emitString, expand, h, Res.raised_bind]; rfl,
      .corruptStream, .chainInconsistent, [], l ++ s.stk, s.c, rfl, rfl, by decide, .inr rfl⟩
  · right
    exact ⟨_, show emitString k s = _ by simp only [emitString, expand, h, Res.raised_bind]; rfl,
      .internalLimitExceeded, .stackFull, [], l ++ s.stk, s.c, rfl, rfl, by decide, .inr rfl⟩

/-- `TAIL` with room in the table (R185). -/
theorem tail_room {s : State} (h : s.n < s.cfg.dictLimit) : tail s = .ok () (afterTail s) := by
  rw [tail, dictAdd_room h, Res.ok_bind]
  by_cases hg : s.d ≤ s.n + 1 ∧ s.w ≠ .w12
  · simp [growOnce, addEntry, hg, afterTail, withPrevious]
  · simp [growOnce, addEntry, hg, afterTail, withPrevious]

/-- `TAIL` with the table full (R185: "then `GROW` is not run and `PW` is not updated"). -/
theorem tail_full {s : State} (h : s.cfg.dictLimit ≤ s.n) :
    tail s = .raised (takeFault .internalLimitExceeded .dictFull s) := by
  rw [tail, dictAdd_full h, Res.raised_bind]

/-- `TAIL` after an output. -/
theorem tail_cases {s : State} {b : Byte} {bytes : List Byte} (hb : s.wr + (b :: bytes).length ≤ s.dstCap) :
    (∃ t, tail (withStack [] (withFirst b (afterOutput (b :: bytes) s))) = .ok () t ∧ Completed s t) ∨
    (∃ t, tail (withStack [] (withFirst b (afterOutput (b :: bytes) s))) = .raised t ∧ Faulted s t) := by
  by_cases h : s.n < s.cfg.dictLimit
  · exact .inl ⟨_, tail_room (by simpa using h), b, bytes, rfl, hb, h⟩
  · exact .inr ⟨_, tail_full (by simpa using h),
      .internalLimitExceeded, .dictFull, _, _, b, rfl, rfl, by decide, .inl hb⟩

/-- Everything the branch `CW < N` can do. -/
theorem knownCode_cases (s : State) :
    (∃ t, knownCode s = .ok () t ∧ Completed s t) ∨ (∃ t, knownCode s = .raised t ∧ Faulted s t) := by
  rcases emitString_cases s.cw s with ⟨b, bytes, h, hb⟩ | ⟨t, h, ht⟩
  · rw [knownCode, h, Res.ok_bind]
    exact tail_cases hb
  · exact .inr ⟨t, by rw [knownCode, h, Res.raised_bind], ht⟩

/-- Everything the branch `CW == N` can do. -/
theorem kwkwkCode_cases (s : State) :
    (∃ t, kwkwkCode s = .ok () t ∧ Completed s t) ∨ (∃ t, kwkwkCode s = .raised t ∧ Faulted s t) := by
  rcases emitString_cases s.pw s with ⟨b, bytes, h, hb⟩ | ⟨t, h, ht⟩
  · rw [kwkwkCode, h, Res.ok_bind]
    by_cases hr : s.wr + (b :: bytes).length < s.dstCap
    · rw [emit_room (by simpa using hr), Res.ok_bind]
      have hput : putByte (withStack [] (withFirst b (afterOutput (b :: bytes) s))).c
          (withStack [] (withFirst b (afterOutput (b :: bytes) s)))
          = withStack [] (withFirst b (afterOutput (b :: (bytes ++ [b])) s)) :=
        congrArg (fun x => withStack [] (withFirst b x)) (putByte_afterOutput b (b :: bytes) s)
      rw [hput]
      exact tail_cases (by simp at hr ⊢; omega)
    · rw [emit_full (by simpa using hr), Res.raised_bind]
      exact .inr ⟨_, rfl, .bufferOverrun, .destFull, _, _, b, rfl, rfl, by decide, .inl hb⟩
  · exact .inr ⟨t, by rw [kwkwkCode, h, Res.raised_bind], ht⟩

/-- Everything a data codeword can do, in any state: it never stops the model. -/
theorem dataCodeword_cases (s : State) :
    (∃ t, dataCodeword s = .ok () t ∧ Completed s t ∧ s.cw.toNat ≤ s.n) ∨
    (∃ t, dataCodeword s = .raised t ∧ Faulted s t) := by
  rw [dataCodeword]
  split
  · exact .inr ⟨_, rfl, .corruptStream, .codeBeyondNextFree, [], s.stk, s.c, rfl, rfl, by decide, .inr rfl⟩
  · split
    · rcases knownCode_cases s with ⟨t, h, ht⟩ | h
      · exact .inl ⟨t, h, ht, by omega⟩
      · exact .inr h
    · rcases kwkwkCode_cases s with ⟨t, h, ht⟩ | h
      · exact .inl ⟨t, h, ht, by omega⟩
      · exact .inr h

/-- Everything `FIRST_LITERAL` can do. -/
theorem firstLiteral_cases (s : State) :
    (s.wr < s.dstCap ∧
      firstLiteral s = .ok () (withPhase .running (withPrevious s.cw (putByte (litByte s.cw) s)))) ∨
    (s.dstCap ≤ s.wr ∧ firstLiteral s = .raised (takeFault .bufferOverrun .destFull s)) := by
  by_cases h : s.wr < s.dstCap
  · exact .inl ⟨h, by simp [firstLiteral, emit_room h]⟩
  · exact .inr ⟨Nat.not_lt.mp h, by simp [firstLiteral, emit_full (Nat.not_lt.mp h)]⟩

/-! ## Where the dictionary is live -/

/-- `EXPAND` of a codeword that has a string, on an empty stack (R148). -/
theorem expand_live {k : Code} {s : State} (hk : HasString s k) (hc : LiveChain s) (hs : s.stk = []) :
    expand k s =
      if (str s k).length ≤ s.cfg.stackDepth then .ok () (withStack (str s k) s)
      else .raised (takeFault .internalLimitExceeded .stackFull
        (withStack (lastBytes s.cfg.stackDepth (str s k)) s)) := by
  have := chainWalk_live (k.toNat + 1) s.n k s (by omega) le_rfl hk hc (by simp [hs])
  by_cases h : (str s k).length ≤ s.cfg.stackDepth
  · rw [if_pos (by simpa [hs, str] using h)] at this
    rw [if_pos h, expand, this, hs, List.append_nil]
    rfl
  · rw [if_neg (by simpa [hs, str] using h)] at this
    rw [if_neg h, expand, this, hs, List.append_nil]
    rfl

/-- A string has a first byte. -/
theorem str_ne_nil (s : State) (k : Code) : str s k ≠ [] := by
  rw [str, chainString]
  split <;> simp

theorem str_eq_cons (s : State) (k : Code) : str s k = firstByte s k :: (str s k).tail := by
  rw [firstByte]
  cases h : str s k with
  | nil => exact absurd h (str_ne_nil s k)
  | cons b l => rfl

/-- The string of a literal is its byte (R147). -/
theorem str_literal {s : State} {k : Code} (h : k.toNat ≤ 0xFF) : str s k = [litByte k] := by
  have : ¬ Config.firstFree ≤ k.toNat := by simp only [Config.firstFree]; omega
  simp [str, chainString, this]

/-- Expanding and flushing a codeword that has a string, where it fits the stack and the destination. -/
theorem emitString_fits {k : Code} {s : State} (hk : HasString s k) (hc : LiveChain s) (hs : s.stk = [])
    (hd : (str s k).length ≤ s.cfg.stackDepth) (hw : s.wr + (str s k).length ≤ s.dstCap) :
    emitString k s = .ok () (withFirst (firstByte s k) (afterOutput (str s k) s)) := by
  rw [emitString, expand_live hk hc hs, if_pos hd, Res.ok_bind,
    stkTop_cons (b := firstByte s k) (rest := (str s k).tail) (by simpa using str_eq_cons s k), Res.ok_bind,
    flush_spec, if_pos (.inl (by simpa using hw))]
  simp only [withStack_stk, withFirst_withStack, afterOutput_withStack, withStack_withStack, afterOutput_withFirst]
  rw [← hs]
  rfl

/-- Where it does not fit the stack (R144: before any byte of the codeword has been emitted). -/
theorem emitString_stackFull {k : Code} {s : State} (hk : HasString s k) (hc : LiveChain s) (hs : s.stk = [])
    (hd : s.cfg.stackDepth < (str s k).length) :
    emitString k s = .raised (takeFault .internalLimitExceeded .stackFull
      (withStack (lastBytes s.cfg.stackDepth (str s k)) s)) := by
  rw [emitString, expand_live hk hc hs, if_neg (by omega), Res.raised_bind]

/-- Where it does not fit the destination (R146, R180: the bytes that fit are written). -/
theorem emitString_destFull {k : Code} {s : State} (hk : HasString s k) (hc : LiveChain s) (hs : s.stk = [])
    (hd : (str s k).length ≤ s.cfg.stackDepth) (hw : s.dstCap < s.wr + (str s k).length) :
    emitString k s = .raised (takeFault .bufferOverrun .destFull
      (withStack ((str s k).drop (s.dstCap - s.wr + 1))
        (withFirst (firstByte s k) (afterOutput ((str s k).take (s.dstCap - s.wr)) s)))) := by
  rw [emitString, expand_live hk hc hs, if_pos hd, Res.ok_bind,
    stkTop_cons (b := firstByte s k) (rest := (str s k).tail) (by simpa using str_eq_cons s k), Res.ok_bind,
    flush_spec, if_neg]
  · simp only [withStack_stk, withFirst_withStack, afterOutput_withStack, withStack_withStack, afterOutput_withFirst, withStack_dstCap, withFirst_dstCap, withStack_wr, withFirst_wr]
  · simp only [withFirst_stk, withStack_stk, withFirst_wr, withStack_wr, withFirst_dstCap, withStack_dstCap]
    rintro (h | h)
    · omega
    · exact str_ne_nil s k h

/-! ## A decoded codeword -/

/-- The bits above a byte are zero exactly for a literal (R96 (3)). -/
theorem high_bits_zero_iff (cw : Code) : cw &&& 0xF00#12 = 0#12 ↔ cw.toNat ≤ 0xFF := by
  have hdiv : (cw.toNat &&& 0xF00) / 256 = cw.toNat / 256 := by
    have h := Nat.shiftRight_and_distrib (a := cw.toNat) (b := 0xF00) (i := 8)
    rw [Nat.shiftRight_eq_div_pow, Nat.shiftRight_eq_div_pow, show 0xF00 >>> 8 = 15 from rfl] at h
    have h15 := Nat.and_two_pow_sub_one_eq_mod (cw.toNat / 256) 4
    have hlt := cw.isLt
    norm_num at h h15
    omega
  have hmod : (cw.toNat &&& 0xF00) % 256 = 0 := by
    have h := Nat.and_mod_two_pow (a := cw.toNat) (b := 0xF00) (n := 8)
    norm_num at h
    exact h
  rw [← BitVec.toNat_inj, BitVec.toNat_and]
  norm_num
  omega

/-- A literal's codeword is the zero extension of its byte (R95). -/
theorem litCode_litByte {cw : Code} (h : cw.toNat ≤ 0xFF) : litCode (litByte cw) = cw := by
  apply BitVec.eq_of_toNat_eq
  simp only [litCode, litByte, BitVec.toNat_setWidth]
  omega

theorem codeReset_toNat : Config.codeReset.toNat = 0x100 := rfl

theorem codeEnd_toNat : Config.codeEnd.toNat = 0x101 := rfl

/-- What static decoding gives, by the value of the codeword (R94, R96). -/
theorem classify_cases (w : Width) (cw : Code) :
    (cw = Config.codeReset ∧ classify w cw = .reset w) ∨ (cw = Config.codeEnd ∧ classify w cw = .endStream w) ∨
    (cw.toNat ≤ 0xFF ∧ classify w cw = .lit w (litByte cw)) ∨
    (Config.firstFree ≤ cw.toNat ∧ classify w cw = .code w cw) := by
  unfold classify
  by_cases h0 : cw = Config.codeReset
  · exact .inl ⟨h0, by simp [h0]⟩
  by_cases h1 : cw = Config.codeEnd
  · refine .inr (.inl ⟨h1, ?_⟩)
    rw [if_neg h0, if_pos h1]
  by_cases h2 : cw.toNat ≤ 0xFF
  · refine .inr (.inr (.inl ⟨h2, ?_⟩))
    rw [if_neg h0, if_neg h1, if_pos ((high_bits_zero_iff cw).mpr h2)]
    rfl
  · refine .inr (.inr (.inr ⟨?_, ?_⟩))
    · have h0' : cw.toNat ≠ 0x100 := fun h => h0 (BitVec.eq_of_toNat_eq (by simpa [codeReset_toNat] using h))
      have h1' : cw.toNat ≠ 0x101 := fun h => h1 (BitVec.eq_of_toNat_eq (by simpa [codeEnd_toNat] using h))
      simp only [Config.firstFree]
      omega
    · rw [if_neg h0, if_neg h1, if_neg (mt (high_bits_zero_iff cw).mp h2)]

end Sys2Proof.Machine
end

