-- ==== Sys2Proof/Laws/PerInstr.lean ====
section
/-! SUPPORT. A law of every operation as syntax: the codeword of a well-formed stream operation fits its width
(`30_encoding.md` R90), and only the stream operations have a codeword (R98). -/

namespace Sys2Proof.Laws.EncodingFits

/-- The codeword of a well-formed operation, where it has one, has no bit at or above its width (R90). -/
def Statement (i : Instr) : Prop :=
  i.wellFormed = true → ∀ c, encode i = some c → c.value.toNat < 2 ^ c.width.bits

/-- A literal's codeword is below 2^8, and so within every width. -/
theorem literal_fits (w : Width) (b : Byte) : (b.setWidth 12).toNat < 2 ^ w.bits := by
  have := b.isLt
  cases w <;> simp [Width.bits] <;> omega

/-- The operand check of a `CODE` is that it fits. -/
theorem validCode_fits {w : Width} {cw : Code} (h : Code.validCode w cw = true) : cw.toNat < 2 ^ w.bits := by
  simp only [Code.validCode, Code.fits, Bool.and_eq_true, decide_eq_true_eq] at h
  exact h.2

theorem reset (w : Width) : Statement (.reset w) := by
  rintro - _ ⟨rfl⟩
  cases w <;> decide

theorem endStream (w : Width) : Statement (.endStream w) := by
  rintro - _ ⟨rfl⟩
  cases w <;> decide

theorem lit (w : Width) (b : Byte) : Statement (.lit w b) := by
  rintro - _ ⟨rfl⟩
  exact literal_fits w b

theorem code (w : Width) (cw : Code) : Statement (.code w cw) := by
  rintro h _ ⟨rfl⟩
  exact validCode_fits h

theorem kwkwk (w : Width) (cw : Code) : Statement (.kwkwk w cw) := by
  rintro h _ ⟨rfl⟩
  exact validCode_fits h

theorem invalid (w : Width) (cw : Code) : Statement (.invalid w cw) := by
  rintro h _ ⟨rfl⟩
  exact validCode_fits h

theorem brRead : Statement (.brRead) := by
  rintro - _ ⟨⟩

theorem dictReset : Statement (.dictReset) := by
  rintro - _ ⟨⟩

theorem dictAdd (p : Code) (b : Byte) : Statement (.dictAdd p b) := by
  rintro - _ ⟨⟩

theorem dictResolve (k : Code) : Statement (.dictResolve k) := by
  rintro - _ ⟨⟩

theorem stkPush (b : Byte) : Statement (.stkPush b) := by
  rintro - _ ⟨⟩

theorem stkPop : Statement (.stkPop) := by
  rintro - _ ⟨⟩

theorem stkIsEmpty : Statement (.stkIsEmpty) := by
  rintro - _ ⟨⟩

theorem stkTop : Statement (.stkTop) := by
  rintro - _ ⟨⟩

theorem expand (k : Code) : Statement (.expand k) := by
  rintro - _ ⟨⟩

theorem flush : Statement (.flush) := by
  rintro - _ ⟨⟩

theorem emit (b : Byte) : Statement (.emit b) := by
  rintro - _ ⟨⟩

theorem data : Statement (.data) := by
  rintro - _ ⟨⟩

theorem tail : Statement (.tail) := by
  rintro - _ ⟨⟩

theorem grow : Statement (.grow) := by
  rintro - _ ⟨⟩

theorem doReset : Statement (.doReset) := by
  rintro - _ ⟨⟩

theorem firstLiteral : Statement (.firstLiteral) := by
  rintro - _ ⟨⟩

theorem step : Statement (.step) := by
  rintro - _ ⟨⟩

theorem start : Statement (.start) := by
  rintro - _ ⟨⟩

end Sys2Proof.Laws.EncodingFits
end

