-- ==== Sys2Proof/Laws/Step.lean ====
section
/-! SUPPORT. What one step can do, said once: executing a decoded codeword is the dispatch of `STEP`
(`43_decoder_control.md` R160), and the inversion of a step of the block. -/

namespace Sys2Proof.Machine

/-! ## Executing a decoded codeword -/

/-- Latching the codeword that `CW` already holds. -/
theorem latch_held {cw : Code} {s : State} (h : s.cw = cw) : latch cw s = s := by
  subst h
  rfl

theorem ne_codeReset {cw : Code} (h : cw.toNat ≤ 0xFF ∨ Config.firstFree ≤ cw.toNat) : cw ≠ Config.codeReset := by
  rintro rfl
  simp [codeReset_toNat, Config.firstFree] at h

theorem ne_codeEnd {cw : Code} (h : cw.toNat ≤ 0xFF ∨ Config.firstFree ≤ cw.toNat) : cw ≠ Config.codeEnd := by
  rintro rfl
  simp [codeEnd_toNat, Config.firstFree] at h

/-- A literal is below `N`, a composite code is not a literal. -/
theorem not_literal {cw : Code} (h : Config.firstFree ≤ cw.toNat) : ¬ cw.toNat ≤ 0xFF := by
  simp only [Config.firstFree] at h
  omega

/-- Executing what `CW` decodes to is what `STEP` does with `CW`. -/
theorem exec_classify {cw : Code} {s : State} (w : Width) (hc : s.cw = cw) :
    exec (classify w cw) s = (dispatchStep s).outcome := by
  rcases classify_cases w cw with ⟨h, e⟩ | ⟨h, e⟩ | ⟨h, e⟩ | ⟨h, e⟩ <;> rw [e]
  · subst h
    simp only [exec, execReset, latch_held hc, resetCodeword, dispatchStep, hc]
    cases s.phase <;> rfl
  · subst h
    simp only [exec, execEndStream, latch_held hc, endCodeword, dispatchStep, hc]
    cases s.phase <;> rfl
  · simp only [exec, execLit, litCode_litByte h, latch_held hc, litCodeword, dispatchStep, hc,
      ne_codeReset (.inl h), ne_codeEnd (.inl h), h, if_true, if_false]
  · simp only [exec, execCode, latch_held hc, codeCodeword, dispatchStep, hc,
      ne_codeReset (.inr h), ne_codeEnd (.inr h), not_literal h, if_false]

/-! ## The inversion of a step -/

/-- What a step does with an admitted codeword `cw`, from the state `u` in which it has been read. -/
inductive StepEffect (cw : Code) (u : State) : State → Prop where
  | firstNotReset (hp : u.phase = .awaitingReset) (hc : cw ≠ Config.codeReset) :
      StepEffect cw u (takeFault .invalidContainer .firstNotReset u)
  | reset (hc : cw = Config.codeReset) : StepEffect cw u (endStep (doReset u))
  | finish (hp : u.phase = .postReset ∨ u.phase = .running) (hc : cw = Config.codeEnd) : StepEffect cw u (finish u)
  | literal (hp : u.phase = .postReset) (hc : cw.toNat ≤ 0xFF) (hw : u.wr < u.dstCap) :
      StepEffect cw u (endStep (withPhase .running (withPrevious cw (putByte (litByte cw) u))))
  | literalFull (hp : u.phase = .postReset) (hc : cw.toNat ≤ 0xFF) (hw : u.dstCap ≤ u.wr) :
      StepEffect cw u (takeFault .bufferOverrun .destFull u)
  | nonliteral (hp : u.phase = .postReset) (hc : Config.firstFree ≤ cw.toNat) :
      StepEffect cw u (takeFault .corruptStream .nonliteralAfterReset u)
  | data (v : State) (hp : u.phase = .running) (hc : cw.toNat ≤ 0xFF ∨ Config.firstFree ≤ cw.toNat)
      (hd : dataCodeword u = .ok () v) (hv : Completed u v) (hn : cw.toNat ≤ u.n) : StepEffect cw u (endStep v)
  | dataFaulted (v : State) (hp : u.phase = .running) (hc : cw.toNat ≤ 0xFF ∨ Config.firstFree ≤ cw.toNat)
      (hd : dataCodeword u = .raised v) (hv : Faulted u v) : StepEffect cw u v

/-- A fault is terminal: nothing is forgotten after it. -/
theorem endStep_fault {s : State} (h : s.phase = .fault) : endStep s = s := by
  simp [endStep, h, Phase.isRunning]

theorem Faulted.phase {s t : State} (h : Faulted s t) : t.phase = .fault := by
  obtain ⟨kd, ce, bytes, l, b, rfl, _⟩ := h
  rfl

/-- Neither a literal nor composite is a control code. -/
theorem code_trichotomy (cw : Code) :
    cw = Config.codeReset ∨ cw = Config.codeEnd ∨ cw.toNat ≤ 0xFF ∨ Config.firstFree ≤ cw.toNat := by
  rcases classify_cases .w9 cw with h | h | h | h
  · exact .inl h.1
  · exact .inr (.inl h.1)
  · exact .inr (.inr (.inl h.1))
  · exact .inr (.inr (.inr h.1))

/-- The dispatch of `STEP` in a running phase: never a stop of the model, and one of the effects. -/
theorem dispatchStep_effect {u : State} (hr : u.phase.isRunning = true) :
    ∃ t, onNext endStep (dispatchStep u).outcome = .next t ∧ StepEffect u.cw u t := by
  rcases hp : u.phase with _ | _ | _ | _ | _ | _
  case idle => simp [hp, Phase.isRunning] at hr
  case done => simp [hp, Phase.isRunning] at hr
  case fault => simp [hp, Phase.isRunning] at hr
  case awaitingReset =>
    by_cases hc : u.cw = Config.codeReset
    · exact ⟨_, by simp only [dispatchStep, hp, hc, if_true]; rfl, .reset hc⟩
    · exact ⟨_, by simp only [dispatchStep, hp, hc, if_false]; rfl, .firstNotReset hp hc⟩
  case postReset =>
    rcases code_trichotomy u.cw with hc | hc | hc | hc
    · exact ⟨_, by simp only [dispatchStep, hp, hc]; rfl, .reset hc⟩
    · exact ⟨_, by simp only [dispatchStep, hp, hc]; rfl, .finish (.inl hp) hc⟩
    · rcases firstLiteral_cases u with ⟨hw, h⟩ | ⟨hw, h⟩
      · exact ⟨_, by simp only [dispatchStep, hp, hc, if_true, h]; rfl, .literal hp hc hw⟩
      · exact ⟨_, by simp only [dispatchStep, hp, hc, if_true, h]; rfl, .literalFull hp hc hw⟩
    · refine ⟨_, ?_, .nonliteral hp hc⟩
      simp only [dispatchStep, hp, ne_codeReset (.inr hc), ne_codeEnd (.inr hc), not_literal hc, if_false]
      rfl
  case running =>
    rcases code_trichotomy u.cw with hc | hc | hc
    · exact ⟨_, by simp only [dispatchStep, hp, hc]; rfl, .reset hc⟩
    · exact ⟨_, by simp only [dispatchStep, hp, hc]; rfl, .finish (.inr hp) hc⟩
    · rcases dataCodeword_cases u with ⟨v, h, hv, hn⟩ | ⟨v, h, hv⟩
      · refine ⟨_, ?_, .data v hp hc h hv hn⟩
        simp only [dispatchStep, hp, ne_codeReset hc, ne_codeEnd hc, if_false, h]
        rfl
      · refine ⟨v, ?_, .dataFaulted v hp hc h hv⟩
        simp only [dispatchStep, hp, ne_codeReset hc, ne_codeEnd hc, if_false, h]
        exact congrArg _ (endStep_fault hv.phase)

/-- A step in a running phase in which the codeword has been read. -/
theorem step_read {s : State} {cw : Code} (hr : s.phase.isRunning = true) (h : brRead s = .ok cw (consume cw s)) :
    step s = onNext endStep (dispatchStep (consume cw s)).outcome := by
  rw [step, if_pos hr, stepCodeword, h]
  exact congrArg (onNext endStep) (exec_classify (cw := cw) (s := consume cw s) s.w rfl)

/-- A step in a running phase whose read is not admitted. -/
theorem step_exhausted {s : State} (hr : s.phase.isRunning = true) (h : ¬ Admitted s) :
    step s = .next (takeFault .bufferOverrun .sourceExhausted s) := by
  rw [step, if_pos hr, stepCodeword, brRead_exhausted h]

/-- Everything a step in a running phase can do. -/
theorem step_running {s : State} (hr : s.phase.isRunning = true) :
    (¬ Admitted s ∧ step s = .next (takeFault .bufferOverrun .sourceExhausted s)) ∨
    (Admitted s ∧ ∃ cw t, brRead s = .ok cw (consume cw s) ∧ step s = .next t ∧ StepEffect cw (consume cw s) t) ∨
    (Admitted s ∧ ∃ a, srcByte s a = none ∧ step s = .fault (.sourceByteUnwritten a)) := by
  rcases brRead_cases s with ⟨ha, _⟩ | ⟨ha, b0, b1, b2, _, _, _, h⟩ | ⟨ha, a, hb, h⟩
  · exact .inl ⟨ha, step_exhausted hr ha⟩
  · obtain ⟨t, ht, he⟩ := dispatchStep_effect (u := consume (codewordAt (windowOf b0 b1 b2) (s.bitpos % 8) s.w) s) hr
    exact .inr (.inl ⟨ha, _, t, h, by rw [step_read hr h, ht], he⟩)
  · exact .inr (.inr ⟨ha, a, hb, by rw [step, if_pos hr, stepCodeword, h]⟩)

/-- The same, from a next state. -/
theorem step_running_next {s t : State} (hr : s.phase.isRunning = true) (h : step s = .next t) :
    (¬ Admitted s ∧ t = takeFault .bufferOverrun .sourceExhausted s) ∨
    (Admitted s ∧ ∃ cw, brRead s = .ok cw (consume cw s) ∧ StepEffect cw (consume cw s) t) := by
  rcases step_running hr with ⟨ha, e⟩ | ⟨ha, cw, t', hb, e, he⟩ | ⟨_, a, _, e⟩ <;> rw [e] at h <;> cases h
  · exact .inl ⟨ha, rfl⟩
  · exact .inr ⟨ha, cw, hb, he⟩

/-- A run goes on from the next state of its first step, in any machine. -/
theorem core_run_next {M : Host.Core} {s t : M.State} (k : Nat) (h : M.step s = .next t) : M.run (k + 1) s = M.run k t := by
  simp only [Host.Core.run, h]

/-- The same of this machine. -/
theorem run_next {s t : State} (k : Nat) (h : step s = .next t) :
    Host.Core.run Sys2Proof.core (k + 1) s = Host.Core.run Sys2Proof.core k t :=
  core_run_next (M := Sys2Proof.core) k h

end Sys2Proof.Machine
end

