-- ==== Sys2Proof/Tests/Slice0.lean ====
section
/-! SUPPORT. Tests: the refused ill-formed operations, words written out from the encodings of `30_encoding.md`, one step
of each operation on the examples of the spec's own rules (each test names the rule), and for each statement a state and
operands that meet its hypotheses, at the boundary values of its clauses. -/

namespace Sys2Proof.Tests

open Sys2Proof.Machine

/-! ## Well-formedness: each check refuses -/

theorem test_code_literal_operand : Instr.wellFormed (.code .w9 0x0FF#12) = false := by decide
theorem test_code_control_operand : Instr.wellFormed (.code .w9 0x101#12) = false := by decide
theorem test_code_too_wide : Instr.wellFormed (.code .w9 0x200#12) = false := by decide
theorem test_kwkwk_control_operand : Instr.wellFormed (.kwkwk .w10 0x100#12) = false := by decide
theorem test_invalid_too_wide : Instr.wellFormed (.invalid .w11 0x800#12) = false := by decide
theorem test_dictAdd_control_prefix : Instr.wellFormed (.dictAdd 0x100#12 0x41#8) = false := by decide
theorem test_dictResolve_literal : Instr.wellFormed (.dictResolve 0x041#12) = false := by decide
theorem test_expand_control : Instr.wellFormed (.expand 0x101#12) = false := by decide

/-! ## Words written out from R94 -/

theorem test_decode_reset :
    decode .w9 0b100000000#12 = .ok (.reset .w9) ∧ decode .w10 0b0100000000#12 = .ok (.reset .w10) ∧
    decode .w11 0b00100000000#12 = .ok (.reset .w11) ∧ decode .w12 0b000100000000#12 = .ok (.reset .w12) := by decide

theorem test_decode_end :
    decode .w9 0b100000001#12 = .ok (.endStream .w9) ∧ decode .w10 0b0100000001#12 = .ok (.endStream .w10) ∧
    decode .w11 0b00100000001#12 = .ok (.endStream .w11) ∧ decode .w12 0b000100000001#12 = .ok (.endStream .w12) := by
  decide

theorem test_decode_lit :
    decode .w9 0b001000001#12 = .ok (.lit .w9 0x41#8) ∧ decode .w10 0b0000000000#12 = .ok (.lit .w10 0x00#8) ∧
    decode .w11 0b00011111111#12 = .ok (.lit .w11 0xFF#8) ∧ decode .w12 0b000010000000#12 = .ok (.lit .w12 0x80#8) := by
  decide

theorem test_decode_code :
    decode .w9 0b100000010#12 = .ok (.code .w9 0x102#12) ∧ decode .w10 0b1000000000#12 = .ok (.code .w10 0x200#12) ∧
    decode .w11 0b10000000001#12 = .ok (.code .w11 0x401#12) ∧
    decode .w12 0b111111111111#12 = .ok (.code .w12 0xFFF#12) := by decide

/-- R97: the alias rows share `CODE`'s bits, and a static decoder ignores them. -/
theorem test_decode_alias_rows :
    encode (.kwkwk .w9 0x104#12) = some ⟨.w9, 0b100000100#12⟩ ∧ encode (.invalid .w9 0x1FF#12) = some ⟨.w9, 0b111111111#12⟩ ∧
    decode .w9 0b100000100#12 = .ok (.code .w9 0x104#12) ∧ decode .w9 0b111111111#12 = .ok (.code .w9 0x1FF#12) := by
  decide

theorem test_decode_too_wide : decode .w9 0x200#12 = .error (.codewordTooWide .w9 0x200#12) := by decide

/-- R93, R105: the bytes 00 83 04 04 hold `RESET`, `LIT 0x41`, `END` at width 9, and nothing more. -/
theorem test_decodeBytes :
    decodeBytes .w9 0 [0x00#8, 0x83#8, 0x04#8, 0x04#8] = .ok (.reset .w9) ∧
    decodeBytes .w9 9 [0x00#8, 0x83#8, 0x04#8, 0x04#8] = .ok (.lit .w9 0x41#8) ∧
    decodeBytes .w9 18 [0x00#8, 0x83#8, 0x04#8, 0x04#8] = .ok (.endStream .w9) ∧
    decodeBytes .w9 27 [0x00#8, 0x83#8, 0x04#8, 0x04#8] = .error (.sourceExhausted 27 .w9) ∧
    streamBytes [0x100#12, 0x041#12, 0x101#12] = [0x00#8, 0x83#8, 0x04#8, 0x04#8] := by decide

theorem test_decodeTableWord :
    decodeTableWord 9 0x100 = some (.reset .w9) ∧ decodeTableWord 10 0x101 = some (.endStream .w10) ∧
    decodeTableWord 11 0x041 = some (.lit .w11 0x41#8) ∧ decodeTableWord 12 0xFFF = some (.code .w12 0xFFF#12) ∧
    decodeTableWord 16 0x3FF = some (.code .w10 0x3FF#12) ∧ decodeTableWord 9 0x200 = none ∧ decodeTableWord 0 0 = none := by
  decide

/-! ## States and observations of the tests -/

/-- A value of the next state of an outcome. -/
def after {α : Type} (o : Host.Outcome State Fault Refusal) (f : State → α) : Option α :=
  match o with
  | .next t => some (f t)
  | .fault _ => none
  | .refused _ => none

/-- The stream 00 83 04 04 (`RESET` at bit 0, `LIT 0x41` at bit 9, `END` at bit 18) in a phase, at a cursor; `PW` is a
literal and `DST` has room for 5 bytes. -/
def streamState (p : Phase) (pos : Nat) : State :=
  { State.reset with
    phase := p, src := [(0, 0x00#8), (1, 0x83#8), (2, 0x04#8), (3, 0x04#8)], srcLen := 4, bitpos := pos, dstCap := 5,
    pw := 0x041#12 }

/-- The stream 00 FF 01 (`RESET`, `LIT 0xFF`) at bit 9, with room for some bytes. -/
def lastLiteralState (p : Phase) (cap : Nat) : State :=
  { streamState p 9 with src := [(0, 0x00#8), (1, 0xFF#8), (2, 0x01#8)], srcLen := 3, dstCap := cap }

/-- The stream 00 05 02 (`RESET`, `CODE 0x102`) at bit 9. -/
def firstCodeState (p : Phase) : State :=
  { streamState p 9 with src := [(0, 0x00#8), (1, 0x05#8), (2, 0x02#8)], srcLen := 3 }

/-- The example of R184: entries `0x102 = (0x041, 0x42)` and `0x103 = (0x042, 0x41)`, `PW = 0x102`, `N = 0x104`, `WR =
4`, room for 7 bytes. -/
def kwkwkState : State :=
  { State.reset with
    phase := .running, n := 0x104, pw := 0x102#12, wr := 4, dstCap := 7,
    dict := [(0x102, { pfx := 0x041#12, byte := 0x42#8 }), (0x103, { pfx := 0x042#12, byte := 0x41#8 })] }

/-- A table that lists `count` elements from an index on, each the string 41 00. -/
def tableFrom : Nat → Nat → DictTable
  | _, 0 => []
  | lo, count + 1 => (lo, { pfx := 0x041#12, byte := 0x00#8 }) :: tableFrom (lo + 1) count

/-- `RUNNING` at width 12 with the table full (`N = DICT_LIMIT = 0x1000`). -/
def fullState : State :=
  { State.reset with
    phase := .running, w := .w12, d := 0x1000, n := 0x1000, pw := 0x041#12, dstCap := 5, dict := tableFrom 0x102 0xEFE }

/-! ## One step of each operation, on the examples of the rules -/

/-- R120: `SRC = 00 83 04 04`, `BITPOS = 9`: `CW = 0x041`, `BITPOS = 18`. -/
theorem test_brRead :
    after (exec .brRead (streamState .running 9)) (fun t => (t.cw, t.bitpos)) = some (0x041#12, 18) := by decide

/-- R122: the last bit of the source admits a read, one bit further does not. -/
theorem test_brRead_exhausted :
    after (exec .brRead (streamState .running 23)) State.bitpos = some 32 ∧
    after (exec .brRead (streamState .running 24)) (fun t => (t.errCause, t.bitpos)) = some (.sourceExhausted, 24) := by
  decide

/-- R164: `W = 11, D = 0x800, N = 0x6A3`, `RESET`: `W = 9, D = 0x200, N = 0x102, PHASE = POST_RESET`. -/
theorem test_reset :
    after (exec (.reset .w11) { State.reset with phase := .running, w := .w11, d := 0x800, n := 0x6A3, wr := 3 })
      (fun t => (t.w, t.d, t.n, t.phase, t.wr)) = some (.w9, 0x200, 0x102, .postReset, 3) := by decide

/-- R170, R35: `END` with `WR = 4 < DST_CAP = 7` ends the run and sets `SHORT`. -/
theorem test_endStream :
    after (exec (.endStream .w9) kwkwkState) (fun t => (t.phase, t.wr, t.pw, t.short)) =
      some (.done, 4, 0x102#12, true) := by decide

/-- R163: `END` as the first codeword faults. -/
theorem test_endStream_first :
    after (exec (.endStream .w9) (streamState .awaitingReset 0)) (fun t => (t.phase, t.errKind, t.errCause)) =
      some (.fault, .invalidContainer, .firstNotReset) := by decide

/-- R182: `PW = 0x041`, `N = 0x102`, `WR = 1`, `CW = 0x042`. -/
theorem test_lit :
    after (exec (.lit .w9 0x42#8) { streamState .running 0 with wr := 1 })
      (fun t => (t.dst, t.wr, Store.get? t.dict 0x102, t.n, t.pw)) =
      some ([(1, 0x42#8)], 2, some { pfx := 0x041#12, byte := 0x42#8 }, 0x103, 0x042#12) := by decide

/-- R167: the first literal adds no entry. -/
theorem test_lit_first :
    after (exec (.lit .w9 0x41#8) (streamState .postReset 0)) (fun t => (t.dst, t.wr, t.n, t.pw, t.phase)) =
      some ([(0, 0x41#8)], 1, 0x102, 0x041#12, .running) := by decide

/-- R183: `PW = 0x042`, `N = 0x103`, entry `0x102 = (0x041, 0x42)`, `WR = 2`, `CW = 0x102`. -/
theorem test_code :
    after (exec (.code .w9 0x102#12)
        { kwkwkState with n := 0x103, pw := 0x042#12, wr := 2, dict := [(0x102, { pfx := 0x041#12, byte := 0x42#8 })] })
      (fun t => (t.dst, t.wr, Store.get? t.dict 0x103, t.n, t.pw)) =
      some ([(2, 0x41#8), (3, 0x42#8)], 4, some { pfx := 0x042#12, byte := 0x41#8 }, 0x104, 0x102#12) := by decide

/-- R180: a string that only partly fits writes the part that fits and then faults. -/
theorem test_code_dest_full :
    after (exec (.code .w9 0x102#12) { kwkwkState with wr := 6 })
      (fun t => (t.dst, t.wr, t.errCause, t.n)) = some ([(6, 0x41#8)], 7, .destFull, 0x104) := by decide

/-- R184: the example of the rule. -/
theorem test_kwkwk :
    after (exec (.kwkwk .w9 0x104#12) kwkwkState)
      (fun t => (t.dst, t.wr, Store.get? t.dict 0x104, t.n, t.pw)) =
      some ([(4, 0x41#8), (5, 0x42#8), (6, 0x41#8)], 7, some { pfx := 0x102#12, byte := 0x41#8 }, 0x105, 0x104#12) := by
  decide

/-- R184: directly after a first literal, `CW = 0x102` writes the literal twice. -/
theorem test_kwkwk_first :
    after (exec (.code .w9 0x102#12) (streamState .running 0)) (fun t => (t.dst, t.n)) =
      some ([(0, 0x41#8), (1, 0x41#8)], 0x103) := by decide

/-- R186: `N = 0x102`, `CW = 0x103`. -/
theorem test_invalid :
    after (exec (.invalid .w9 0x103#12) { streamState .running 0 with wr := 1 })
      (fun t => (t.phase, t.errKind, t.errCause, t.wr)) = some (.fault, .corruptStream, .codeBeyondNextFree, 1) := by
  decide

/-- R130: `N = 0x345` before, `N = 0x102` after. -/
theorem test_dictReset : after (exec .dictReset { kwkwkState with n := 0x345 }) State.n = some 0x102 := by decide

/-- R131: `N = 0x102`, `DICT_ADD(0x041, 0x42)`. -/
theorem test_dictAdd :
    after (exec (.dictAdd 0x041#12 0x42#8) State.reset) (fun t => (t.dict, t.result, t.n)) =
      some ([(0x102, { pfx := 0x041#12, byte := 0x42#8 })], .assigned 0x102, 0x103) := by decide

/-- R133: `DICT_RESOLVE(0x102) = (0x041, 0x42)`. -/
theorem test_dictResolve :
    after (exec (.dictResolve 0x102#12) kwkwkState) State.result = some (.entry { pfx := 0x041#12, byte := 0x42#8 }) := by
  decide

/-- R140: `SP = 0`, `STK_PUSH(0x42)`. -/
theorem test_stkPush : after (exec (.stkPush 0x42#8) State.reset) State.stk = some [0x42#8] := by decide

/-- R144: the push that finds the stack full. -/
theorem test_stkPush_full :
    after (exec (.stkPush 0x42#8) { State.reset with cfg := { Config.vectors with stackDepth := 1 }, stk := [0x41#8] })
      (fun t => (t.errKind, t.errCause, t.stk)) = some (.internalLimitExceeded, .stackFull, [0x41#8]) := by decide

/-- R141: `SP = 2`, bottom to top 42 41: returns 41. -/
theorem test_stkPop :
    after (exec .stkPop { State.reset with stk := [0x41#8, 0x42#8] }) (fun t => (t.result, t.stk)) =
      some (.byte 0x41#8, [0x42#8]) := by decide

/-- R142: true on the empty stack, false on a stack that holds a byte. -/
theorem test_stkIsEmpty :
    after (exec .stkIsEmpty State.reset) State.result = some (.truth true) ∧
    after (exec .stkIsEmpty { State.reset with stk := [0x00#8] }) State.result = some (.truth false) := by decide

/-- R143: `SP = 2`, bottom to top 42 41: returns 41, the stack stays. -/
theorem test_stkTop :
    after (exec .stkTop { State.reset with stk := [0x41#8, 0x42#8] }) (fun t => (t.result, t.stk)) =
      some (.byte 0x41#8, [0x41#8, 0x42#8]) := by decide

/-- R145: entries `0x102 = (0x041, 0x42)`, `0x104 = (0x102, 0x41)`, `N = 0x105`, `EXPAND(0x104)`. -/
theorem test_expand :
    after (exec (.expand 0x104#12)
        { kwkwkState with n := 0x105, dict := kwkwkState.dict ++ [(0x104, { pfx := 0x102#12, byte := 0x41#8 })] })
      State.stk = some [0x41#8, 0x42#8, 0x41#8] := by decide

/-- R146: stack bottom to top 41 42 41, `WR = 4`. -/
theorem test_flush :
    after (exec .flush { kwkwkState with stk := [0x41#8, 0x42#8, 0x41#8] }) (fun t => (t.dst, t.wr, t.stk)) =
      some ([(4, 0x41#8), (5, 0x42#8), (6, 0x41#8)], 7, []) := by decide

/-- R180: `WR = 6, DST_CAP = 7`: the first emit writes, a further one faults. -/
theorem test_emit :
    after (exec (.emit 0x41#8) { kwkwkState with wr := 6 }) (fun t => (t.dst, t.wr, t.phase)) =
      some ([(6, 0x41#8)], 7, .running) ∧
    after (exec (.emit 0x41#8) { kwkwkState with wr := 7 }) (fun t => (t.dst, t.wr, t.errCause)) =
      some ([], 7, .destFull) := by decide

/-- R181, R183: `DATA` on the codeword in `CW`. -/
theorem test_data :
    after (exec .data { kwkwkState with cw := 0x103#12 }) (fun t => (t.dst, t.wr, t.c)) =
      some ([(4, 0x42#8), (5, 0x41#8)], 6, 0x42#8) := by decide

/-- R185, R195: the add makes `N = 0x200`, the width becomes 10 and `PW` the codeword. -/
theorem test_tail :
    after (exec .tail { kwkwkState with n := 0x1FF, dict := [], cw := 0x043#12, c := 0x43#8 })
      (fun t => (t.dict, t.n, t.w, t.d, t.pw)) =
      some ([(0x1FF, { pfx := 0x102#12, byte := 0x43#8 })], 0x200, .w10, 0x400, 0x043#12) := by decide

/-- R195, R199: growth at `N = D`; none below `D`; none at width 12. -/
theorem test_grow :
    after (exec .grow { State.reset with n := 0x200 }) (fun t => (t.w, t.d)) = some (.w10, 0x400) ∧
    after (exec .grow { State.reset with n := 0x1FF }) (fun t => (t.w, t.d)) = some (.w9, 0x200) ∧
    after (exec .grow { State.reset with w := .w12, d := 0x1000, n := 0x1000 }) (fun t => (t.w, t.d)) =
      some (.w12, 0x1000) := by decide

/-- R164: the cursor and `WR` are not reset. -/
theorem test_doReset :
    after (exec .doReset { kwkwkState with bitpos := 77, w := .w10, d := 0x400, n := 0x200 })
      (fun t => (t.w, t.d, t.n, t.bitpos, t.wr, t.phase)) = some (.w9, 0x200, 0x102, 77, 4, .postReset) := by decide

/-- R167: `WR = 0`, `DST_CAP = 5`, `CW = 0x041`. -/
theorem test_firstLiteral :
    after (exec .firstLiteral { streamState .postReset 0 with cw := 0x041#12 }) (fun t => (t.dst, t.wr, t.pw, t.n)) =
      some ([(0, 0x41#8)], 1, 0x041#12, 0x102) := by decide

/-- R163: `SRC = 41 00`, `SRC_LEN = 2`: `FIRST_NOT_RESET`, `BITPOS = 9`, `WR = 0`. -/
theorem test_step :
    after (exec .step { streamState .awaitingReset 0 with src := [(0, 0x41#8), (1, 0x00#8)], srcLen := 2 })
      (fun t => (t.cw, t.phase, t.errKind, t.errCause, t.bitpos, t.wr)) =
      some (0x041#12, .fault, .invalidContainer, .firstNotReset, 9, 0) := by decide

/-- R29: where the block goes on after `STEP`, `CW` is not the codeword read: it is a value that has just been drawn. -/
theorem test_step_ends :
    after (exec .step { streamState .awaitingReset 0 with src := [(0, 0x00#8), (1, 0x01#8)], srcLen := 2, draws := 7 })
      (fun t => (t.phase, t.cw, t.c, t.draws)) =
      some (.postReset, Config.freeCode 8, Config.freeByte 8, 9) := rfl

/-- R241: `START` after a fault. -/
theorem test_start :
    after (exec .start { kwkwkState with phase := .fault, errKind := .bufferOverrun, errCause := .destFull, bitpos := 99 })
      (fun t => (t.phase, t.errKind, t.errCause, t.bitpos, t.wr, t.n)) =
      some (.awaitingReset, .noError, .noError, 0, 0, 0x102) := by decide

/-- R255: `START` during a run. -/
theorem test_start_running : after (exec .start kwkwkState) State.phase = none := by decide

/-- The word of a row, placed by `withFetchWord`, is what the next step runs (log entry 11); `DST_CAP` is 0 at reset, so a
literal faults with `DEST_FULL`. -/
theorem test_withFetchWord :
    after (step (State.reset.withFetchWord 9 0x100)) State.phase = some .postReset ∧
    after (step (State.reset.withFetchWord 12 0x101)) State.phase = some .done ∧
    after (step (State.reset.withFetchWord 12 0x041)) (fun t => (t.cw, t.errCause)) = some (0x041#12, .destFull) := by
  decide

/-! ## The hypotheses of the statements are met

For each statement that has hypotheses, a state and operands that meet them together; where a statement has several
clauses, each clause at a boundary of its range. -/

/-- The machine answers a next state. -/
abbrev Moves (s : State) : Prop := ∃ t, step s = .next t

/-- A running phase in which the step reads the codeword and answers a next state. -/
abbrev Reads (s : State) (cw : Code) : Prop := s.phase.isRunning = true ∧ (∃ s1, brRead s = .ok cw s1) ∧ Moves s

theorem streamState_placed (p : Phase) (pos : Nat) : SourcePlaced (streamState p pos) := by
  intro a ha
  match a, ha with
  | 0, _ => exact ⟨_, rfl⟩
  | 1, _ => exact ⟨_, rfl⟩
  | 2, _ => exact ⟨_, rfl⟩
  | 3, _ => exact ⟨_, rfl⟩
  | _ + 4, h => exact absurd h (by simp [streamState])

theorem streamState_inv {p : Phase} {pos : Nat} (hp : p ≠ .fault) (h : pos ≤ 32) : Inv (streamState p pos) where
  parameters := (by decide : Config.vectors.Valid)
  sourceCanonical := rfl
  destCanonical := rfl
  dictCanonical := rfl
  faultRecord := ⟨fun h => absurd rfl h, fun h => absurd h hp⟩
  faultCause := rfl
  run _ := {
    ceiling := rfl
    nextFreeLow := le_rfl
    nextFreeHigh := (by decide : (0x102 : Nat) ≤ 0x1000)
    belowCeiling := fun _ => (by decide : (0x102 : Nat) < 0x200)
    aboveHalf := fun h => absurd rfl h
    cursor := h
    written := Nat.zero_le _
    stackEmpty := rfl
    previous := fun _ => ⟨(by decide : (0x041 : Nat) < 0x102), rfl⟩
    chain := fun i h1 h2 _ => absurd (show i < 0x102 from h2) (Nat.not_lt.mpr h1)
    fresh := fun _ => ⟨rfl, rfl⟩ }

theorem kwkwkState_chain : LiveChain kwkwkState := by
  intro i h1 h2 _
  have h2' : i < 0x104 := h2
  have h1' : 0x102 ≤ i := h1
  obtain rfl | rfl : i = 0x102 ∨ i = 0x103 := by omega
  · exact ⟨_, rfl, by decide, by decide⟩
  · exact ⟨_, rfl, by decide, by decide⟩

theorem kwkwkState_inv : Inv kwkwkState where
  parameters := by decide
  sourceCanonical := rfl
  destCanonical := rfl
  dictCanonical := by decide
  faultRecord := ⟨fun h => absurd rfl h, fun h => by cases h⟩
  faultCause := rfl
  run _ := {
    ceiling := rfl
    nextFreeLow := by decide
    nextFreeHigh := by decide
    belowCeiling := fun _ => by decide
    aboveHalf := fun h => absurd rfl h
    cursor := Nat.zero_le _
    written := by decide
    stackEmpty := rfl
    previous := fun _ => ⟨by decide, by decide⟩
    chain := kwkwkState_chain
    fresh := fun h => absurd rfl h }

theorem tableFrom_get (lo count i : Nat) (h1 : lo ≤ i) (h2 : i < lo + count) :
    Store.get? (tableFrom lo count) i = some { pfx := 0x041#12, byte := 0x00#8 } := by
  induction count generalizing lo with
  | zero => omega
  | succ n ih =>
    by_cases h : lo = i
    · simp [tableFrom, Store.get?, h]
    · simpa [tableFrom, Store.get?, h] using ih (lo + 1) (by omega) (by omega)

theorem tableFrom_rising (b lo count : Nat) (h : b ≤ lo) : Store.risingFrom b (tableFrom lo count) = true := by
  induction count generalizing b lo with
  | zero => rfl
  | succ n ih => simp [tableFrom, Store.risingFrom, h, ih]

theorem fullState_chain : LiveChain fullState := by
  intro i h1 h2 _
  have h2' : i < 0x1000 := h2
  have h1' : 0x102 ≤ i := h1
  refine ⟨_, tableFrom_get 0x102 0xEFE i h1' (by omega), ?_, by decide⟩
  simp
  omega

theorem fullState_inv : Inv fullState where
  parameters := by decide
  sourceCanonical := rfl
  destCanonical := rfl
  dictCanonical := tableFrom_rising 0x102 0x102 0xEFE le_rfl
  faultRecord := ⟨fun h => absurd rfl h, fun h => by cases h⟩
  faultCause := rfl
  run _ := {
    ceiling := rfl
    nextFreeLow := by decide
    nextFreeHigh := by decide
    belowCeiling := fun h => absurd rfl h
    aboveHalf := fun _ => by decide
    cursor := Nat.zero_le _
    written := Nat.zero_le _
    stackEmpty := rfl
    previous := fun _ => ⟨by decide, by decide⟩
    chain := fullState_chain
    fresh := fun h => absurd rfl h }

theorem witness_DecodeFollowsOpcodeTable : (0x1FF#12).toNat < 2 ^ Width.w9.bits ∧ 2 ^ Width.w9.bits ≤ (0x200#12).toNat := by
  decide

theorem witness_EncodeThenDecode :
    Instr.wellFormed (.code .w12 0xFFF#12) = true ∧ encode (.code .w12 0xFFF#12) = some ⟨.w12, 0xFFF#12⟩ ∧
    Instr.wellFormed (.lit .w9 0xFF#8) = true ∧ encode (.lit .w9 0xFF#8) = some ⟨.w9, 0x0FF#12⟩ := by decide

theorem witness_PackThenRead :
    (∀ x ∈ [⟨.w9, 0x100#12⟩] ++ (⟨.w9, 0x041#12⟩ : Codeword) :: [⟨.w9, 0x101#12⟩], x.value.toNat < 2 ^ x.width.bits) ∧
    (streamState .running 9).srcLen =
      (pack ([⟨.w9, 0x100#12⟩] ++ (⟨.w9, 0x041#12⟩ : Codeword) :: [⟨.w9, 0x101#12⟩])).length ∧
    (∀ a b, (pack ([⟨.w9, 0x100#12⟩] ++ (⟨.w9, 0x041#12⟩ : Codeword) :: [⟨.w9, 0x101#12⟩]))[a]? = some b →
      (streamState .running 9).src.read a = some b) ∧
    (streamState .running 9).bitpos = totalBits [⟨.w9, 0x100#12⟩] ∧ (streamState .running 9).w = .w9 := by
  refine ⟨by decide, by decide, fun a b h => ?_, by decide, by decide⟩
  match a, h with
  | 0, h => exact h
  | 1, h => exact h
  | 2, h => exact h
  | 3, h => exact h
  | _ + 4, h => cases h

/-- Bit 23 is the last at which a read of 9 bits is admitted. -/
theorem witness_BrReadOperation :
    ((streamState .running 23).bitpos + (streamState .running 23).w.bits ≤ 8 * (streamState .running 23).srcLen ∧
      ∀ a, (streamState .running 23).bitpos / 8 ≤ a → a ≤ (streamState .running 23).bitpos / 8 + 2 →
        srcByte (streamState .running 23) a ≠ none) ∧
    8 * (streamState .running 24).srcLen < (streamState .running 24).bitpos + (streamState .running 24).w.bits := by
  refine ⟨⟨by decide, fun a _ _ => ?_⟩, by decide⟩
  obtain ⟨b, hb⟩ := srcByte_placed (streamState_placed .running 23) a
  simp [hb]

theorem witness_StepRunsDecodedCodeword :
    (streamState .running 9).phase.isRunning = true ∧
    (streamState .running 9).bitpos + (streamState .running 9).w.bits ≤ 8 * (streamState .running 9).srcLen ∧
    srcByte (streamState .running 9) 1 = some 0x83#8 ∧ srcByte (streamState .running 9) 2 = some 0x04#8 ∧
    srcByte (streamState .running 9) 3 = some 0x04#8 ∧
    decode .w9 (codewordAt (windowOf 0x83#8 0x04#8 0x04#8) (9 % 8) .w9) = .ok (.lit .w9 0x41#8) := by decide

/-- For `DecodedStepIsStepPseudocode`, `StepTotalOnRunningPhases` and `EveryRunEnds`; both clauses of the second. -/
theorem witness_StepTotalOnRunningPhases :
    (∀ p ∈ [Phase.awaitingReset, .postReset, .running], (streamState p 23).phase.isRunning = true) ∧
    SourcePlaced (streamState .running 23) ∧ Admitted (streamState .running 23) ∧
    SourcePlaced (streamState .running 24) ∧
    8 * (streamState .running 24).srcLen < (streamState .running 24).bitpos + (streamState .running 24).w.bits :=
  ⟨by decide, streamState_placed _ _, by decide, streamState_placed _ _, by decide⟩

/-- Every row of the table: `RESET` at bit 0, the last literal 0xFF from the bytes 00 FF 01 at bit 9 (with and without
room, and as data), `END` at bit 18, the first composite code 0x102 from the bytes 00 05 02 at bit 9 (after a reset, and
as data), a cursor at bit 24 that is past the last codeword, and the host. -/
theorem witness_PhaseTransitionTable :
    (Reads (streamState .awaitingReset 0) 0x100#12 ∧ Reads (streamState .awaitingReset 18) 0x101#12) ∧
    (Reads (lastLiteralState .postReset 5) 0x0FF#12 ∧ Reads (lastLiteralState .postReset 0) 0x0FF#12 ∧
      Reads (streamState .postReset 0) 0x100#12 ∧ Reads (streamState .postReset 18) 0x101#12 ∧
      Reads (firstCodeState .postReset) 0x102#12) ∧
    (Reads (streamState .running 0) 0x100#12 ∧ Reads (streamState .running 18) 0x101#12 ∧
      Reads (lastLiteralState .running 5) 0x0FF#12 ∧ Reads (firstCodeState .running) 0x102#12) ∧
    (Moves (streamState .running 24) ∧
      8 * (streamState .running 24).srcLen < (streamState .running 24).bitpos + (streamState .running 24).w.bits) ∧
    (Moves { State.reset with hostQueue := [.start] } ∧ Moves { State.reset with hostQueue := [.setDstCap 0xFFFFFF] }) :=
  ⟨⟨⟨rfl, ⟨_, rfl⟩, _, rfl⟩, ⟨rfl, ⟨_, rfl⟩, _, rfl⟩⟩,
    ⟨⟨rfl, ⟨_, rfl⟩, _, rfl⟩, ⟨rfl, ⟨_, rfl⟩, _, rfl⟩, ⟨rfl, ⟨_, rfl⟩, _, rfl⟩, ⟨rfl, ⟨_, rfl⟩, _, rfl⟩,
      ⟨rfl, ⟨_, rfl⟩, _, rfl⟩⟩,
    ⟨⟨rfl, ⟨_, rfl⟩, _, rfl⟩, ⟨rfl, ⟨_, rfl⟩, _, rfl⟩, ⟨rfl, ⟨_, rfl⟩, _, rfl⟩, ⟨rfl, ⟨_, rfl⟩, _, rfl⟩⟩,
    ⟨⟨_, rfl⟩, by decide⟩, ⟨_, rfl⟩, ⟨_, rfl⟩⟩

/-- For `CursorAdvancesByWidth` (both clauses), `StepKeepsSourceAndConfiguration`, `DestinationWrittenInOrder`,
`StepNeverReadsDestination` and `FaultRecordNamesTheCause` (a step that faults and one that does not). -/
theorem witness_CursorAdvancesByWidth :
    ((streamState .running 23).phase.isRunning = true ∧ Moves (streamState .running 23) ∧
      Admitted (streamState .running 23)) ∧
    ((streamState .running 24).phase.isRunning = true ∧ Moves (streamState .running 24) ∧
      8 * (streamState .running 24).srcLen < (streamState .running 24).bitpos + (streamState .running 24).w.bits) ∧
    after (step (streamState .running 23)) State.phase = some .running ∧
    after (step (streamState .running 24)) State.phase = some .fault :=
  ⟨⟨rfl, ⟨_, rfl⟩, by decide⟩, ⟨rfl, ⟨_, rfl⟩, by decide⟩, by decide, by decide⟩

/-- Another memory that agrees below `SRC_LEN` and lists a byte at `SRC_LEN`. -/
theorem witness_StepIgnoresBytesBeyondSource :
    (streamState .running 9).phase.isRunning = true ∧
    ∀ a, a < (streamState .running 9).srcLen →
      Memory.read ((streamState .running 9).src ++ [(4, 0xFF#8)]) a = (streamState .running 9).src.read a := by
  refine ⟨rfl, fun a ha => ?_⟩
  match a, ha with
  | 0, _ => rfl
  | 1, _ => rfl
  | 2, _ => rfl
  | 3, _ => rfl
  | _ + 4, h => exact absurd h (by simp [streamState])

/-- Another table: the live elements 0x102 and 0x103 agree, the stale element 0x104 differs. -/
theorem witness_StaleEntriesUnobservable :
    kwkwkState.phase.isRunning = true ∧
    ∀ i, 0x102 ≤ i → i < kwkwkState.n →
      Store.get? (kwkwkState.dict ++ [(0x104, { pfx := 0x103#12, byte := 0xFF#8 })]) i = Store.get? kwkwkState.dict i := by
  refine ⟨rfl, fun i h1 h2 => ?_⟩
  have h2' : i < 0x104 := h2
  obtain rfl | rfl : i = 0x102 ∨ i = 0x103 := by omega
  · rfl
  · rfl

theorem witness_PreviousUnreadOutsideRunning :
    (streamState .awaitingReset 0).phase = .awaitingReset ∧ Moves (streamState .awaitingReset 0) ∧
    (streamState .postReset 9).phase = .postReset ∧ after (step (streamState .postReset 9)) State.phase = some .running :=
  ⟨rfl, ⟨_, rfl⟩, rfl, by decide⟩

theorem witness_EveryRunEnds :
    (streamState .awaitingReset 0).phase.isRunning = true ∧ SourcePlaced (streamState .awaitingReset 0) :=
  ⟨rfl, streamState_placed _ _⟩

/-- A step of the core and a step of the host. -/
theorem witness_InvariantKeptByStep :
    (Inv (streamState .running 9) ∧ Moves (streamState .running 9)) ∧
    (Inv { streamState .done 27 with hostQueue := [.start] } ∧ Moves { streamState .done 27 with hostQueue := [.start] }) := by
  refine ⟨⟨streamState_inv (by decide) (by decide), _, rfl⟩, ?_, _, rfl⟩
  obtain ⟨h1, h2, h3, h4, h5, h6, _⟩ := streamState_inv (p := .done) (pos := 27) (by decide) (by decide)
  exact ⟨h1, h2, h3, h4, h5, h6, fun h => by cases h⟩

/-- `N = 0x102` at width 9, and `N = 0x1000` at width 12. -/
theorem witness_NextFreeFitsTheWidth :
    (Inv (streamState .running 0) ∧ (streamState .running 0).phase.isRunning = true ∧ (streamState .running 0).n ≤ 0xFFF) ∧
    (Inv fullState ∧ fullState.phase.isRunning = true ∧ 0x1000 ≤ fullState.n) :=
  ⟨⟨streamState_inv (by decide) (by decide), rfl, by decide⟩, fullState_inv, rfl, by decide⟩

/-- A literal in `POST_RESET`, which enters `RUNNING`. -/
theorem witness_ScheduleIsTheDecoders :
    Inv (streamState .postReset 9) ∧ Reads (streamState .postReset 9) 0x041#12 ∧
    after (step (streamState .postReset 9)) State.phase = some .running ∧
    (SchedulePhase.postReset = .awaitingReset ↔ (streamState .postReset 9).phase = .awaitingReset) ∧
    (SchedulePhase.postReset = .postReset ↔ (streamState .postReset 9).phase = .postReset) ∧
    (SchedulePhase.running = .awaitingReset ↔ Phase.running = .awaitingReset) ∧
    (SchedulePhase.running = .postReset ↔ Phase.running = .postReset) :=
  ⟨streamState_inv (by decide) (by decide), ⟨rfl, ⟨_, rfl⟩, _, rfl⟩, by decide, by decide, by decide, by decide, by decide⟩

/-- A reset code read at width 10 (bytes 00 01), and `START` after a run that ended at width 12. -/
theorem witness_OnlyResetLowersTheWidth :
    after (step { streamState .running 0 with w := .w10, d := 0x400, n := 0x200, src := [(0, 0x00#8), (1, 0x01#8)], srcLen := 2 })
      (fun t => decide (t.w.bits < Width.w10.bits)) = some true ∧
    after (step { streamState .done 27 with w := .w12, hostQueue := [.start] })
      (fun t => decide (t.w.bits < Width.w12.bits)) = some true := by decide

/-- The first and the last composite code. -/
theorem witness_StringLengthBound :
    (Inv kwkwkState ∧ kwkwkState.phase.isRunning = true ∧ 0x102 ≤ (0x102#12).toNat ∧ (0x102#12).toNat < kwkwkState.n) ∧
    (Inv fullState ∧ fullState.phase.isRunning = true ∧ 0x102 ≤ (0xFFF#12).toNat ∧ (0xFFF#12).toNat < fullState.n) :=
  ⟨⟨kwkwkState_inv, rfl, by decide, by decide⟩, fullState_inv, rfl, by decide, by decide⟩

/-- For `StackFullUnreachable` and `ChainInconsistentUnreachable`. -/
theorem witness_StackFullUnreachable :
    Inv (streamState .running 9) ∧ (streamState .running 9).phase.isRunning = true ∧
    3839 ≤ (streamState .running 9).cfg.stackDepth ∧ Moves (streamState .running 9) :=
  ⟨streamState_inv (by decide) (by decide), rfl, by decide, _, rfl⟩

theorem witness_ResetCodeword :
    (streamState .awaitingReset 0).phase.isRunning = true ∧ (streamState .postReset 0).phase.isRunning = true ∧
    (streamState .running 0).phase.isRunning = true := by decide

theorem witness_EndCodeword :
    (streamState .postReset 0).phase = .postReset ∧ (streamState .running 0).phase = .running := by decide

theorem witness_FirstCodewordMustBeReset :
    (streamState .awaitingReset 0).phase = .awaitingReset ∧
    (Instr.wellFormed (.reset .w9) = true ∧ encode (.reset .w9) = some ⟨.w9, 0x100#12⟩) ∧
    (Instr.wellFormed (.endStream .w9) = true ∧ encode (.endStream .w9) = some ⟨.w9, 0x101#12⟩ ∧ 0x101#12 ≠ 0x100#12) := by
  decide

/-- One byte of room, and none. -/
theorem witness_FirstLiteralCodeword :
    ((streamState .postReset 0).phase = .postReset ∧ { streamState .postReset 0 with wr := 4 }.wr < (streamState .postReset 0).dstCap) ∧
    ({ streamState .postReset 0 with wr := 5 }.phase = .postReset ∧
      (streamState .postReset 0).dstCap ≤ { streamState .postReset 0 with wr := 5 }.wr) := by decide

theorem witness_CompositeAfterResetFaults :
    (streamState .postReset 0).phase = .postReset ∧ Instr.wellFormed (.code .w9 0x102#12) = true ∧
    encode (.code .w9 0x102#12) = some ⟨.w9, 0x102#12⟩ ∧ 0x102 ≤ (0x102#12).toNat := by decide

/-- One byte of room; none; room, but the table full. -/
theorem witness_LiteralInRunning :
    (∀ s ∈ [{ streamState .running 0 with wr := 4 }, { streamState .running 0 with wr := 5 }],
      s.phase = .running ∧ 0x102 ≤ s.n ∧ s.stk = [] ∧ 1 ≤ s.cfg.stackDepth ∧ s.n < s.cfg.dictLimit) ∧
    (4 < (streamState .running 0).dstCap ∧ (streamState .running 0).dstCap ≤ 5) ∧
    (fullState.phase = .running ∧ 0x102 ≤ fullState.n ∧ fullState.stk = [] ∧ 1 ≤ fullState.cfg.stackDepth ∧
      fullState.wr < fullState.dstCap ∧ fullState.cfg.dictLimit ≤ fullState.n) :=
  ⟨by decide, by decide, rfl, by decide, rfl, by decide, by decide, by decide⟩

/-- The string 41 42 of the code 0x102: exactly fitting; with one stack slot; one byte short of room; and, with the table
full, room for the string 41 00. -/
theorem witness_KnownCodeInRunning :
    (LiveChain { kwkwkState with wr := 5 } ∧ (str { kwkwkState with wr := 5 } 0x102#12).length ≤ 4096 ∧
      5 + (str { kwkwkState with wr := 5 } 0x102#12).length ≤ kwkwkState.dstCap) ∧
    (LiveChain { kwkwkState with cfg := { Config.vectors with stackDepth := 1 } } ∧
      1 < (str { kwkwkState with cfg := { Config.vectors with stackDepth := 1 } } 0x102#12).length) ∧
    (LiveChain { kwkwkState with wr := 6 } ∧
      kwkwkState.dstCap < 6 + (str { kwkwkState with wr := 6 } 0x102#12).length) ∧
    (LiveChain fullState ∧ (0x102#12).toNat < fullState.n ∧ fullState.stk = [] ∧
      (str fullState 0x102#12).length ≤ fullState.cfg.stackDepth ∧
      fullState.wr + (str fullState 0x102#12).length ≤ fullState.dstCap ∧ fullState.cfg.dictLimit ≤ fullState.n) ∧
    (kwkwkState.phase = .running ∧ kwkwkState.stk = [] ∧ 0x102 ≤ (0x102#12).toNat ∧ (0x102#12).toNat < kwkwkState.n ∧
      kwkwkState.n < kwkwkState.cfg.dictLimit) :=
  ⟨⟨kwkwkState_chain, by decide, by decide⟩, ⟨kwkwkState_chain, by decide⟩, ⟨kwkwkState_chain, by decide⟩,
    ⟨fullState_chain, by decide, rfl, by decide, by decide, by decide⟩, by decide⟩

/-- The code 0x104 with `N = 0x104`: three bytes of room; one stack slot; room for one byte of the two of `PW`; room for
the two and not for the extra byte. -/
theorem witness_KwkwkInRunning :
    (LiveChain kwkwkState ∧ HasString kwkwkState kwkwkState.pw ∧ kwkwkState.cfg.Valid ∧
      kwkwkState.wr + (str kwkwkState kwkwkState.pw).length + 1 ≤ kwkwkState.dstCap ∧
      (str kwkwkState kwkwkState.pw).length ≤ kwkwkState.cfg.stackDepth) ∧
    (1 < (str { kwkwkState with cfg := { Config.vectors with stackDepth := 1 } } kwkwkState.pw).length ∧
      ({ Config.vectors with stackDepth := 1 } : Config).Valid) ∧
    kwkwkState.dstCap < 6 + (str { kwkwkState with wr := 6 } kwkwkState.pw).length ∧
    kwkwkState.dstCap = 5 + (str { kwkwkState with wr := 5 } kwkwkState.pw).length ∧
    (kwkwkState.phase = .running ∧ kwkwkState.stk = [] ∧ 0x102 ≤ (0x104#12).toNat ∧ (0x104#12).toNat = kwkwkState.n ∧
      kwkwkState.wr ≤ kwkwkState.dstCap) :=
  ⟨⟨kwkwkState_chain, .inr (by decide), by decide, by decide, by decide⟩, by decide, by decide, by decide, by decide⟩

theorem witness_InvalidCodeFaults :
    kwkwkState.phase = .running ∧ 0x102 ≤ (0x105#12).toNat ∧ kwkwkState.n < (0x105#12).toNat := by decide

/-- A literal, a known code and the code equal to `N`. -/
theorem witness_DataCodewordWritesItsString :
    Inv kwkwkState ∧ kwkwkState.phase = .running ∧
    ∀ i ∈ [Instr.lit .w9 0x41#8, .code .w9 0x103#12, .code .w9 0x104#12],
      i.wellFormed = true ∧ (encode i).isSome = true ∧ after (exec i kwkwkState) State.phase = some .running :=
  ⟨kwkwkState_inv, rfl, by decide⟩

theorem witness_DictAddOperation :
    { State.reset with n := 0xFFF }.n < State.reset.cfg.dictLimit ∧ fullState.cfg.dictLimit ≤ fullState.n := by decide

/-- The first and the last live element; the codewords just outside. -/
theorem witness_DictResolveOperation :
    (0x102 ≤ (0x102#12).toNat ∧ (0x103#12).toNat < kwkwkState.n) ∧ (0x101#12).toNat < 0x102 ∧
    kwkwkState.n ≤ (0x104#12).toNat := by decide

/-- The first and the last index a codeword can name, and a live element beside. -/
theorem witness_DictAddThenResolve :
    (0x102 ≤ State.reset.n ∧ State.reset.n ≤ 0xFFF ∧ State.reset.n < State.reset.cfg.dictLimit) ∧
    (0x102 ≤ { fullState with n := 0xFFF }.n ∧ { fullState with n := 0xFFF }.n ≤ 0xFFF ∧
      { fullState with n := 0xFFF }.n < fullState.cfg.dictLimit) ∧
    (0x102 ≤ (0x103#12).toNat ∧ (0x103#12).toNat < kwkwkState.n ∧
      exec (.dictResolve 0x103#12) kwkwkState =
        .next { kwkwkState with result := .entry { pfx := 0x042#12, byte := 0x41#8 } }) :=
  ⟨by decide, by decide, by decide, by decide, rfl⟩

/-- One free slot, none; and the empty stack. -/
theorem witness_StackPushAndPop :
    { State.reset with cfg := { Config.vectors with stackDepth := 1 } }.sp < 1 ∧
    1 ≤ { State.reset with cfg := { Config.vectors with stackDepth := 1 }, stk := [0x41#8] }.sp ∧ State.reset.sp = 0 := by
  decide

theorem witness_StackTopAndIsEmpty :
    { State.reset with stk := [0x41#8] }.stk = 0x41#8 :: [] ∧ State.reset.sp = 0 := by decide

/-- The string 41 42 with two free slots, and with one. -/
theorem witness_ExpandLeavesTheString :
    (LiveChain { kwkwkState with cfg := { Config.vectors with stackDepth := 2 } } ∧
      HasString { kwkwkState with cfg := { Config.vectors with stackDepth := 2 } } 0x102#12 ∧
      0 + (str { kwkwkState with cfg := { Config.vectors with stackDepth := 2 } } 0x102#12).length ≤ 2) ∧
    (LiveChain { kwkwkState with cfg := { Config.vectors with stackDepth := 1 } } ∧
      HasString { kwkwkState with cfg := { Config.vectors with stackDepth := 1 } } 0x102#12 ∧
      1 < 0 + (str { kwkwkState with cfg := { Config.vectors with stackDepth := 1 } } 0x102#12).length) ∧
    kwkwkState.sp = 0 :=
  ⟨⟨kwkwkState_chain, .inr (by decide), by decide⟩, ⟨kwkwkState_chain, .inr (by decide), by decide⟩, rfl⟩

theorem witness_ExpandOfDeadCodeFaults : 0x102 ≤ (0x104#12).toNat ∧ kwkwkState.n ≤ (0x104#12).toNat := by decide

/-- Room for exactly the stack, and for one byte fewer. -/
theorem witness_FlushWritesTheStack :
    (6 ≤ kwkwkState.dstCap ∧ { kwkwkState with wr := 6, stk := [0x41#8] }.wr + { kwkwkState with wr := 6, stk := [0x41#8] }.sp ≤
      kwkwkState.dstCap) ∧
    (7 ≤ kwkwkState.dstCap ∧
      kwkwkState.dstCap < { kwkwkState with wr := 7, stk := [0x41#8] }.wr + { kwkwkState with wr := 7, stk := [0x41#8] }.sp) := by
  decide

theorem witness_WritesReadBack :
    (0 : Nat) < [0x41#8].length ∧ (4 < 5 ∨ 5 + [0x41#8].length ≤ 4) ∧ Memory.wf [(5, 0x00#8)] = true := by decide

theorem witness_EmitOperation :
    { kwkwkState with wr := 6 }.wr < kwkwkState.dstCap ∧ kwkwkState.dstCap ≤ { kwkwkState with wr := 7 }.wr := by decide

theorem witness_TailOperation :
    { kwkwkState with n := 0xFFF }.n < kwkwkState.cfg.dictLimit ∧ fullState.cfg.dictLimit ≤ fullState.n := by decide

/-- Growth at `N = D`; none at `N = D - 1`; none at width 12. -/
theorem witness_GrowOperation :
    ({ State.reset with n := 0x200 }.d ≤ { State.reset with n := 0x200 }.n ∧ State.reset.w.bits < 12) ∧
    { State.reset with n := 0x1FF }.n < State.reset.d ∧ fullState.w.bits = 12 := by decide

theorem witness_StartBeginsInvocation :
    State.reset.phase = .idle ∧ (streamState .done 27).phase = .done ∧ (streamState .fault 27).phase = .fault := by decide

/-- The state at power-on and the end of a run, with the same buffers. -/
theorem witness_StartForgetsTheLastInvocation :
    State.reset.phase.isRunning = false ∧
    { streamState .done 27 with src := [], srcLen := 0, dstCap := 0 }.phase.isRunning = false ∧
    State.reset.cfg = (streamState .done 27).cfg ∧ State.reset.dst = (streamState .done 27).dst ∧
    State.reset.hostQueue = (streamState .done 27).hostQueue ∧ State.reset.draws = (streamState .done 27).draws ∧
    State.reset.pw ≠ (streamState .done 27).pw := by decide

theorem witness_StartDuringRunRefused : (streamState .awaitingReset 0).phase.isRunning = true := by decide

/-- No action, `START`, and another action at the largest capacity. -/
theorem witness_OnlyStartLeavesTerminalPhase :
    (State.reset.phase.isRunning = false ∧ State.reset.hostQueue = []) ∧
    ((streamState .fault 27).phase.isRunning = false ∧
      { streamState .fault 27 with hostQueue := [.start] }.hostQueue = .start :: []) ∧
    (HostAction.setDstCap 0xFFFFFF ≠ .start ∧ Moves { State.reset with hostQueue := [.setDstCap 0xFFFFFF] }) :=
  ⟨by decide, by decide, by decide, _, rfl⟩

theorem witness_ContainerCheckIsFirstCodeword :
    6 ≤ [0x00#8, 0x00#8, 0x00#8, 0x00#8, 0x00#8, 0x01#8].length ∧
    byteAt [0x00#8, 0x00#8, 0x00#8, 0x00#8, 0x00#8, 0x01#8] 3 = 0x00#8 := by decide

/-- The least file: no bytes of output, and the stream 00 01. -/
theorem witness_ContainerSetsUpInvocation :
    containerActions [0x00#8, 0x00#8, 0x00#8, 0x00#8, 0x00#8, 0x01#8] =
      .ok [.setSrcLen 2, .setDstCap 0, .writeSrc 0 0x00#8, .writeSrc 1 0x01#8, .start] ∧
    State.reset.phase.isRunning = false ∧
    [0x00#8, 0x00#8, 0x00#8, 0x00#8, 0x00#8, 0x01#8].length - 4 ≤ State.reset.cfg.srcLenMax := by decide

theorem witness_HostReadsTheResult :
    ((streamState .done 27).phase = .done ∧ { streamState .done 27 with wr := 5 }.wr = (streamState .done 27).dstCap) ∧
    { streamState .done 27 with wr := 4 }.wr ≠ (streamState .done 27).dstCap ∧ (streamState .fault 27).phase = .fault := by
  decide

/-- One byte too few; the 4th byte; byte 4; bit 0 of byte 5; and the least file that passes. -/
theorem witness_InvalidContainerRejected :
    [0x00#8, 0x00#8, 0x00#8, 0x00#8, 0x00#8].length < 6 ∧
    byteAt [0x00#8, 0x00#8, 0x00#8, 0x01#8, 0x00#8, 0x01#8] 3 ≠ 0x00#8 ∧
    byteAt [0x00#8, 0x00#8, 0x00#8, 0x00#8, 0x01#8, 0x01#8] 4 ≠ 0x00#8 ∧
    (byteAt [0x00#8, 0x00#8, 0x00#8, 0x00#8, 0x00#8, 0xFE#8] 5).getLsbD 0 = false ∧
    (6 ≤ [0x00#8, 0x00#8, 0x00#8, 0x00#8, 0x00#8, 0x01#8].length ∧
      byteAt [0x00#8, 0x00#8, 0x00#8, 0x00#8, 0x00#8, 0x01#8] 3 = 0x00#8 ∧
      byteAt [0x00#8, 0x00#8, 0x00#8, 0x00#8, 0x00#8, 0x01#8] 4 = 0x00#8 ∧
      (byteAt [0x00#8, 0x00#8, 0x00#8, 0x00#8, 0x00#8, 0x01#8] 5).getLsbD 0 = true) := by decide

end Sys2Proof.Tests
end

section
/-! Noninterference of a step (`10_state.md` R24, R36): two states that differ only in what no rule reads run in
lockstep. The first part is for any relation between states, the others for the dictionary table and for `PW`. -/

namespace Sys2Proof.Machine

/-! ## Lockstep -/

/-- The two results end in the same way, with the same value, and in related states. -/
inductive Res.Lockstep {α : Type} (R : State → State → Prop) : Res α → Res α → Prop where
  | ok (a : α) {s s' : State} (h : R s s') : Lockstep R (.ok a s) (.ok a s')
  | raised {s s' : State} (h : R s s') : Lockstep R (.raised s) (.raised s')
  | fault (f : Fault) : Lockstep R (.fault f) (.fault f)
  | refused (q : Refusal) : Lockstep R (.refused q) (.refused q)

section Lockstep
variable {α β : Type} {Q R : State → State → Prop} {s s' : State}

theorem Res.Lockstep.refl (hR : ∀ s, R s s) (r : Res α) : Lockstep R r r := by
  cases r with
  | ok a s => exact .ok a (hR s)
  | raised s => exact .raised (hR s)
  | fault f => exact .fault f
  | refused q => exact .refused q

theorem Res.Lockstep.mono {r r' : Res α} (h : Lockstep Q r r') (hQ : ∀ t t', Q t t' → R t t') : Lockstep R r r' := by
  cases h with
  | ok a h => exact .ok a (hQ _ _ h)
  | raised h => exact .raised (hQ _ _ h)
  | fault f => exact .fault f
  | refused q => exact .refused q

/-- Sequences run in lockstep where the first parts do and the second parts do from any states the first can reach. -/
theorem Res.Lockstep.bind {r r' : Res α} {k k' : α → State → Res β} (h : Lockstep Q r r')
    (hQ : ∀ t t', Q t t' → R t t') (hk : ∀ a t t', Q t t' → Lockstep R (k a t) (k' a t')) :
    Lockstep R (r.bind k) (r'.bind k') := by
  cases h with
  | ok a h => exact hk a _ _ h
  | raised h => exact .raised (hQ _ _ h)
  | fault f => exact .fault f
  | refused q => exact .refused q

/-- Branches on the same condition run in lockstep where their arms do. -/
theorem Res.Lockstep.ite {c : Prop} [Decidable c] {r r' q q' : Res α} (hr : Lockstep R r r') (hq : Lockstep R q q') :
    Lockstep R (if c then r else q) (if c then r' else q') := by
  split
  · exact hr
  · exact hq

/-- The BitReader reads the same from both states: cursor, width, source length and source bytes agree (R120, R122). -/
structure ReadAlike (s s' : State) : Prop where
  bitpos : s'.bitpos = s.bitpos
  width : s'.w = s.w
  srcLen : s'.srcLen = s.srcLen
  srcByte : ∀ a, srcByte s' a = srcByte s a

theorem fetchByte_lockstep (ha : ReadAlike s s') (a : Nat) :
    (fetchByte a s).Lockstep (fun t t' => t = s ∧ t' = s') (fetchByte a s') := by
  simp only [fetchByte, ha.srcByte]
  cases srcByte s a with
  | none => exact .fault _
  | some b => exact .ok b ⟨rfl, rfl⟩

/-- What a relation between states must keep for a step to keep it: one field per statement of `STEP` (R160). -/
structure StepRelation (R : State → State → Prop) : Prop where
  phase : ∀ s s', R s s' → s'.phase = s.phase
  cw : ∀ s s', R s s' → s'.cw = s.cw
  read : ∀ s s', R s s' → ReadAlike s s'
  takeFault : ∀ kd ce s s', R s s' → R (takeFault kd ce s) (takeFault kd ce s')
  consume : ∀ cw s s', R s s' → R (consume cw s) (consume cw s')
  doReset : ∀ s s', R s s' → R (doReset s) (doReset s')
  finish : ∀ s s', R s s' → R (finish s) (finish s')
  firstLiteral : ∀ s s', R s s' → (firstLiteral s).Lockstep R (firstLiteral s')
  data : ∀ s s', R s s' → s.phase = .running → (dataCodeword s).Lockstep R (dataCodeword s')
  endStep : ∀ s s', R s s' → R (endStep s) (endStep s')

theorem StepRelation.dispatch (hS : StepRelation R) (h : R s s') :
    (dispatchStep s).Lockstep R (dispatchStep s') := by
  have hraise : ∀ kd ce, (raise kd ce s : Res Unit).Lockstep R (raise kd ce s') :=
    fun kd ce => .raised (hS.takeFault kd ce _ _ h)
  have hstop : (notEnabled s : Res Unit).Lockstep R (notEnabled s') := by
    rw [notEnabled, notEnabled, hS.phase s s' h]
    exact .fault _
  have hreset : (Res.ok () (Machine.doReset s)).Lockstep R (.ok () (Machine.doReset s')) := .ok () (hS.doReset _ _ h)
  have hfinish : (Res.ok () (Machine.finish s)).Lockstep R (.ok () (Machine.finish s')) := .ok () (hS.finish _ _ h)
  rw [dispatchStep, dispatchStep, hS.phase s s' h, hS.cw s s' h]
  cases hp : s.phase with
  | awaitingReset => exact .ite hreset (hraise _ _)
  | postReset => exact .ite (hS.firstLiteral _ _ h) (.ite hreset (.ite hfinish (hraise _ _)))
  | running => exact .ite hreset (.ite hfinish (hS.data _ _ h hp))
  | idle => exact hstop
  | done => exact hstop
  | fault => exact hstop

theorem StepRelation.brRead (hS : StepRelation R) (h : R s s') : (brRead s).Lockstep R (brRead s') := by
  have ha := hS.read s s' h
  have hR : ∀ t t', t = s ∧ t' = s' → R t t' := by
    rintro _ _ ⟨rfl, rfl⟩
    exact h
  rw [Machine.brRead, Machine.brRead, ha.bitpos, ha.width, ha.srcLen]
  split
  · exact .raised (hS.takeFault _ _ s s' h)
  · refine (fetchByte_lockstep ha _).bind hR ?_
    rintro b0 _ _ ⟨rfl, rfl⟩
    rw [ha.bitpos]
    refine (fetchByte_lockstep ha _).bind hR ?_
    rintro b1 _ _ ⟨rfl, rfl⟩
    rw [ha.bitpos]
    refine (fetchByte_lockstep ha _).bind hR ?_
    rintro b2 _ _ ⟨rfl, rfl⟩
    rw [ha.bitpos, ha.width]
    exact .ok _ (hS.consume _ _ _ h)

theorem StepRelation.stepOnce (hS : StepRelation R) (h : R s s') : (stepOnce s).Lockstep R (stepOnce s') := by
  rw [Machine.stepOnce, Machine.stepOnce, hS.phase s s' h]
  split
  · exact (hS.brRead h).bind (fun _ _ => id) fun _ _ _ => hS.dispatch
  · rw [notEnabled, notEnabled, hS.phase s s' h]
    exact .fault _

end Lockstep

/-- A step in a running phase is `STEP`'s pseudocode, and then the temporaries are forgotten (R160, R29). -/
theorem step_eq_stepOnce {s : State} (hr : s.phase.isRunning = true) :
    step s = onNext endStep (stepOnce s).outcome := by
  rw [stepOnce, if_pos hr]
  rcases brRead_cases s with ⟨hn, h⟩ | ⟨_, b0, b1, b2, _, _, _, h⟩ | ⟨_, a, _, h⟩
  · rw [step_exhausted hr hn, h]
    exact congrArg _ (endStep_fault rfl).symm
  · rw [step_read hr h, h, Res.ok_bind]
  · rw [step, if_pos hr, stepCodeword, h]
    rfl

/-- Related states of a running phase step to related states, or stop alike. -/
theorem StepRelation.step {R : State → State → Prop} (hS : StepRelation R) {s s' : State}
    (hr : s.phase.isRunning = true) (h : R s s') :
    (∀ t, step s = .next t → ∃ t', step s' = .next t' ∧ R t t') ∧ (∀ f, step s = .fault f → step s' = .fault f) := by
  have hr' : s'.phase.isRunning = true := hS.phase s s' h ▸ hr
  have hl := hS.stepOnce h
  rw [step_eq_stepOnce hr, step_eq_stepOnce hr']
  generalize Machine.stepOnce s = r at hl ⊢
  generalize Machine.stepOnce s' = r' at hl ⊢
  cases hl with
  | ok a h => exact ⟨by rintro _ ⟨⟩; exact ⟨_, rfl, hS.endStep _ _ h⟩, by rintro _ ⟨⟩⟩
  | raised h => exact ⟨by rintro _ ⟨⟩; exact ⟨_, rfl, hS.endStep _ _ h⟩, by rintro _ ⟨⟩⟩
  | fault f => exact ⟨by rintro _ ⟨⟩, by rintro _ ⟨⟩; rfl⟩
  | refused q => exact ⟨by rintro _ ⟨⟩, by rintro _ ⟨⟩⟩

/-! ## Stale dictionary entries (R36) -/

/-- The state with another dictionary table. -/
def withTable (d : DictTable) (s : State) : State := { s with dict := d }

/-- The states differ at most in the table, and there only in elements that are not live. -/
def SameLive (s s' : State) : Prop :=
  ∃ d, s' = withTable d s ∧ ∀ i, Config.firstFree ≤ i → i < s.n → Store.get? d i = Store.get? s.dict i

section SameLive
variable {s s' : State}

/-- An update that leaves the table and `N` alone keeps the relation. -/
theorem SameLive.update {f : State → State} (h : SameLive s s') (hf : ∀ d, f (withTable d s) = withTable d (f s))
    (hd : (f s).dict = s.dict) (hn : (f s).n = s.n) : SameLive (f s) (f s') := by
  obtain ⟨d, rfl, hl⟩ := h
  exact ⟨d, hf d, by rwa [hd, hn]⟩

/-- After a reset code no element is live, so any two tables agree. -/
theorem SameLive.doReset (h : SameLive s s') : SameLive (doReset s) (doReset s') := by
  obtain ⟨d, rfl, -⟩ := h
  exact ⟨d, rfl, fun i h1 h2 => absurd h1 (Nat.not_le.mpr h2)⟩

/-- The element added at `N` is live afterwards, and is the same in both tables. -/
theorem SameLive.afterTail (h : SameLive s s') : SameLive (afterTail s) (afterTail s') := by
  obtain ⟨d, rfl, hl⟩ := h
  refine ⟨Store.set d s.n { pfx := s.pw, byte := s.c }, rfl, fun i h1 h2 => ?_⟩
  rw [afterTail_dict]
  rw [afterTail_n] at h2
  by_cases hi : i = s.n
  · rw [hi, Store.get?_set_self, Store.get?_set_self]
  · rw [Store.get?_set_ne _ _ hi, Store.get?_set_ne _ _ hi]
    exact hl i h1 (by omega)

theorem SameLive.takeFault (kd : ErrKind) (ce : ErrCause) (h : SameLive s s') :
    SameLive (takeFault kd ce s) (takeFault kd ce s') :=
  h.update (f := Machine.takeFault kd ce) (fun _ => rfl) rfl rfl

/-- A live element reads the same. -/
theorem SameLive.dictRead {i : Nat} (h : SameLive s s') (h1 : Config.firstFree ≤ i) (h2 : i < s.n) :
    dictRead s' i = dictRead s i := by
  obtain ⟨d, rfl, hl⟩ := h
  simp only [Machine.dictRead, withTable, hl i h1 h2]

theorem emit_sameLive (b : Byte) (h : SameLive s s') : (emit b s).Lockstep SameLive (emit b s') := by
  have hput : SameLive (putByte b s) (putByte b s') := h.update (fun _ => rfl) rfl rfl
  have hfull := h.takeFault .bufferOverrun .destFull
  obtain ⟨d, rfl, -⟩ := h
  by_cases hw : s.wr < s.dstCap
  · rw [emit_room hw, emit_room (s := withTable d s) hw]
    exact .ok () hput
  · rw [emit_full (Nat.not_lt.mp hw), emit_full (s := withTable d s) (Nat.not_lt.mp hw)]
    exact .raised hfull

/-- A push keeps the relation, and `N`. -/
theorem stkPush_sameLive (b : Byte) (h : SameLive s s') :
    (stkPush b s).Lockstep (fun t t' => SameLive t t' ∧ t.n = s.n) (stkPush b s') := by
  have hpush : SameLive (withStack (b :: s.stk) s) (withStack (b :: s.stk) s') :=
    h.update (f := withStack (b :: s.stk)) (fun _ => rfl) rfl rfl
  have hfull := h.takeFault .internalLimitExceeded .stackFull
  obtain ⟨d, rfl, -⟩ := h
  by_cases hp : s.stk.length < s.cfg.stackDepth
  · rw [stkPush_room hp, stkPush_room (s := withTable d s) hp]
    exact .ok () ⟨hpush, rfl⟩
  · rw [stkPush_full (Nat.not_lt.mp hp), stkPush_full (s := withTable d s) (Nat.not_lt.mp hp)]
    exact .raised ⟨hfull, rfl⟩

theorem stkTop_sameLive (h : SameLive s s') : (stkTop s).Lockstep SameLive (stkTop s') := by
  have hs : s'.stk = s.stk := by
    obtain ⟨d, rfl, -⟩ := h
    rfl
  rw [stkTop, stkTop, hs]
  split
  · exact .refused _
  · exact .ok _ h

/-- The walk reads elements below its bound only, and those are live where the bound is at most `N`. -/
theorem chainWalk_sameLive (fuel bound : Nat) (k : Code) (hb : bound ≤ s.n) (h : SameLive s s') :
    (chainWalk fuel bound k s).Lockstep SameLive (chainWalk fuel bound k s') := by
  induction fuel generalizing bound k s s' with
  | zero => exact .raised (h.takeFault _ _)
  | succ f ih =>
    rw [chainWalk, chainWalk]
    split
    next hk =>
      split
      next => exact .raised (h.takeFault _ _)
      next hlt =>
        rw [h.dictRead hk (by omega)]
        exact (stkPush_sameLive _ h).bind (fun _ _ => And.left) fun _ t t' ⟨ht, hn⟩ => ih _ _ (by omega) ht
    next =>
      split
      next => exact .raised (h.takeFault _ _)
      next => exact (stkPush_sameLive _ h).mono fun _ _ => And.left

theorem flushBytes_sameLive (l : List Byte) (h : SameLive s s') :
    (flushBytes l s).Lockstep SameLive (flushBytes l s') := by
  induction l generalizing s s' with
  | nil => exact .ok () (h.update (f := withStack []) (fun _ => rfl) rfl rfl)
  | cons b rest ih =>
    have hpop : SameLive (withStack rest s) (withStack rest s') := h.update (fun _ => rfl) rfl rfl
    exact (emit_sameLive b hpop).bind (fun _ _ => id) fun _ _ _ => ih

theorem flush_sameLive (h : SameLive s s') : (flush s).Lockstep SameLive (flush s') := by
  have hl := flushBytes_sameLive s.stk h
  obtain ⟨d, rfl, -⟩ := h
  exact hl

theorem emitString_sameLive (k : Code) (h : SameLive s s') :
    (emitString k s).Lockstep SameLive (emitString k s') := by
  have hexp : (expand k s).Lockstep SameLive (expand k s') := by
    have hw := chainWalk_sameLive (k.toNat + 1) s.n k le_rfl h
    obtain ⟨d, rfl, -⟩ := h
    exact hw
  refine hexp.bind (fun _ _ => id) fun _ t t' ht => ?_
  refine (stkTop_sameLive ht).bind (fun _ _ => id) fun b u u' hu => ?_
  exact flush_sameLive (hu.update (f := withFirst b) (fun _ => rfl) rfl rfl)

theorem tail_sameLive (h : SameLive s s') : (tail s).Lockstep SameLive (tail s') := by
  have hadd := h.afterTail
  have hfull := h.takeFault .internalLimitExceeded .dictFull
  obtain ⟨d, rfl, -⟩ := h
  by_cases hn : s.n < s.cfg.dictLimit
  · rw [tail_room hn, tail_room (s := withTable d s) hn]
    exact .ok () hadd
  · rw [tail_full (Nat.not_lt.mp hn), tail_full (s := withTable d s) (Nat.not_lt.mp hn)]
    exact .raised hfull

theorem knownCode_sameLive (h : SameLive s s') : (knownCode s).Lockstep SameLive (knownCode s') := by
  have hs := emitString_sameLive s.cw h
  obtain ⟨d, rfl, -⟩ := h
  exact hs.bind (fun _ _ => id) fun _ _ _ => tail_sameLive

theorem kwkwkCode_sameLive (h : SameLive s s') : (kwkwkCode s).Lockstep SameLive (kwkwkCode s') := by
  have hs := emitString_sameLive s.pw h
  obtain ⟨d, rfl, -⟩ := h
  refine hs.bind (fun _ _ => id) fun _ t t' ht => ?_
  have he := emit_sameLive t.c ht
  obtain ⟨d', rfl, -⟩ := ht
  exact he.bind (fun _ _ => id) fun _ _ _ => tail_sameLive

theorem dataCodeword_sameLive (h : SameLive s s') : (dataCodeword s).Lockstep SameLive (dataCodeword s') := by
  have hk := knownCode_sameLive h
  have hkw := kwkwkCode_sameLive h
  have hi := h.takeFault .corruptStream .codeBeyondNextFree
  obtain ⟨d, rfl, -⟩ := h
  simp only [dataCodeword, show (withTable d s).n = s.n from rfl, show (withTable d s).cw = s.cw from rfl]
  split
  · exact .raised hi
  · split
    · exact hk
    · exact hkw

theorem firstLiteral_sameLive (h : SameLive s s') : (firstLiteral s).Lockstep SameLive (firstLiteral s') := by
  have he := emit_sameLive (litByte s.cw) h
  obtain ⟨d, rfl, -⟩ := h
  refine he.bind (fun _ _ => id) fun _ t t' ht => .ok () ?_
  have hcw : t'.cw = t.cw := by
    obtain ⟨d', rfl, -⟩ := ht
    rfl
  rw [hcw]
  exact ht.update (f := fun u => withPhase .running (withPrevious t.cw u)) (fun _ => rfl) rfl rfl

theorem SameLive.readAlike (h : SameLive s s') : ReadAlike s s' := by
  obtain ⟨d, rfl, -⟩ := h
  exact ⟨rfl, rfl, rfl, fun _ => rfl⟩

end SameLive

theorem sameLive_stepRelation : StepRelation SameLive where
  phase := by rintro s _ ⟨d, rfl, -⟩; rfl
  cw := by rintro s _ ⟨d, rfl, -⟩; rfl
  read := fun _ _ => SameLive.readAlike
  takeFault := fun kd ce _ _ => SameLive.takeFault kd ce
  consume := fun cw _ _ h => h.update (f := consume cw) (fun _ => rfl) rfl rfl
  doReset := fun _ _ => SameLive.doReset
  finish := fun _ _ h => h.update (f := finish) (fun _ => rfl) rfl rfl
  firstLiteral := fun _ _ => firstLiteral_sameLive
  data := fun _ _ h _ => dataCodeword_sameLive h
  endStep := fun s _ h =>
    h.update (fun d => by unfold endStep withTable; split <;> rfl) (endStep_dict s) (endStep_n s)

/-- Settles O15: the relation "same but for elements that are not live" is kept by every statement of a step; the
chain walk reads only below `N`. -/
theorem staleEntriesUnobservable : Obligations.StaleEntriesUnobservable := by
  intro s d hr hlive
  obtain ⟨hnext, hfault⟩ := sameLive_stepRelation.step hr (s' := withTable d s) ⟨d, rfl, hlive⟩
  refine ⟨fun t ht => ?_, hfault⟩
  obtain ⟨_, ht', d', rfl, hlive'⟩ := hnext t ht
  exact ⟨d', ht', hlive'⟩

/-! ## `PW` outside `RUNNING` (R24) -/

/-- The states differ at most in `PW`, and not in `RUNNING`. -/
def SamePrevious (s s' : State) : Prop := ∃ v, s' = withPrevious v s ∧ (s.phase = .running → v = s.pw)

section SamePrevious
variable {s s' : State}

theorem SamePrevious.refl (s : State) : SamePrevious s s := ⟨s.pw, rfl, fun _ => rfl⟩

/-- In `RUNNING` the states are equal. -/
theorem SamePrevious.eq_of_running (h : SamePrevious s s') (hp : s.phase = .running) : s' = s := by
  obtain ⟨v, rfl, hv⟩ := h
  rw [hv hp]
  rfl

/-- An update that neither reads nor writes `PW`, and does not enter `RUNNING`, keeps the relation. -/
theorem SamePrevious.update {f : State → State} (h : SamePrevious s s')
    (hf : ∀ v, f (withPrevious v s) = withPrevious v (f s)) (hpw : (f s).pw = s.pw)
    (hp : (f s).phase = .running → s.phase = .running) : SamePrevious (f s) (f s') := by
  obtain ⟨v, rfl, hv⟩ := h
  exact ⟨v, hf v, fun hr => by rw [hpw, hv (hp hr)]⟩

/-- The first literal becomes `PW`, so from there on the states are equal (R167). -/
theorem firstLiteral_samePrevious (h : SamePrevious s s') :
    (firstLiteral s).Lockstep SamePrevious (firstLiteral s') := by
  have hfull : SamePrevious (takeFault .bufferOverrun .destFull s) (takeFault .bufferOverrun .destFull s') :=
    h.update (f := takeFault _ _) (fun _ => rfl) rfl nofun
  obtain ⟨v, rfl, -⟩ := h
  rcases firstLiteral_cases s with ⟨hw, e⟩ | ⟨hw, e⟩
  · rw [e, firstLiteral, emit_room (s := withPrevious v s) hw]
    exact .ok () (.refl _)
  · rw [e, firstLiteral, emit_full (s := withPrevious v s) hw]
    exact .raised hfull

end SamePrevious

theorem samePrevious_stepRelation : StepRelation SamePrevious where
  phase := by rintro s _ ⟨v, rfl, -⟩; rfl
  cw := by rintro s _ ⟨v, rfl, -⟩; rfl
  read := by rintro s _ ⟨v, rfl, -⟩; exact ⟨rfl, rfl, rfl, fun _ => rfl⟩
  takeFault := fun kd ce _ _ h => h.update (f := takeFault kd ce) (fun _ => rfl) rfl nofun
  consume := fun cw _ _ h => h.update (f := consume cw) (fun _ => rfl) rfl id
  doReset := by rintro s _ ⟨v, rfl, -⟩; exact .refl (doReset s)
  finish := fun _ _ h => h.update (f := finish) (fun _ => rfl) rfl nofun
  firstLiteral := fun _ _ => firstLiteral_samePrevious
  data := fun _ _ h hp => by rw [h.eq_of_running hp]; exact .refl .refl _
  endStep := fun s _ h =>
    h.update (fun v => by unfold endStep withPrevious; split <;> rfl) (endStep_pw s) (by rw [endStep_phase]; exact id)

/-- Settles O16: the relation "same but for `PW`, which is the same in `RUNNING`" is kept by every statement of a
step; a reset code and the first literal make the states equal. -/
theorem previousUnreadOutsideRunning : Obligations.PreviousUnreadOutsideRunning := by
  intro s v hp
  have hr : s.phase.isRunning = true ∧ s.phase ≠ .running := by
    rcases hp with hp | hp <;> rw [hp] <;> exact ⟨rfl, nofun⟩
  obtain ⟨hnext, hfault⟩ :=
    samePrevious_stepRelation.step hr.1 (s' := withPrevious v s) ⟨v, rfl, fun h => absurd h hr.2⟩
  refine ⟨fun t ht => ?_, hfault⟩
  obtain ⟨_, ht', v', rfl, hv⟩ := hnext t ht
  exact ⟨v', ht', hv⟩

end Sys2Proof.Machine
end

section
/-! The invariants of `10_state.md` R30: each effect of a step keeps `Inv`, and each action of the host; and what the
cursor, `START` and the host's turn do (`10_state.md` R25, R37, R27, R35). -/

namespace Sys2Proof.Machine

/-! ## What the invariant gives -/

section Invariant
variable {s t u : State}

/-- No fault is recorded outside `FAULT` (R30 (viii)). -/
theorem Inv.errKind_eq (hi : Inv s) (hp : s.phase ≠ .fault) : s.errKind = .noError := by
  by_contra h
  exact hp (hi.faultRecord.mp h)

theorem Phase.ne_fault_of_isRunning {p : Phase} (h : p.isRunning = true) : p ≠ .fault := by
  rintro rfl
  cases h

/-- A cause the core records has a kind other than `NONE`. -/
theorem ErrCause.kind_ne_noError {ce : ErrCause} (h : ce ∉ [ErrCause.noError, .shortWrite]) : ce.kind ≠ .noError := by
  cases ce with
  | noError => simp at h
  | _ => decide

theorem isControl_eq_false {k : Code} (h : k.toNat ≤ 0xFF ∨ Config.firstFree ≤ k.toNat) : Code.isControl k = false := by
  simp [Code.isControl, ne_codeReset h, ne_codeEnd h]

/-! ## Faults -/

/-- Fault entry gives `Inv` from any state with valid parameters and canonical stores. -/
theorem inv_takeFault {kd : ErrKind} {ce : ErrCause} (hv : s.cfg.Valid) (hs : s.src.wf = true) (hd : s.dst.wf = true)
    (ht : s.dict.wf = true) (hc : ce.kind = kd) (hk : kd ≠ .noError) : Inv (takeFault kd ce s) where
  parameters := hv
  sourceCanonical := hs
  destCanonical := hd
  dictCanonical := ht
  faultRecord := ⟨fun _ => rfl, fun _ => hk⟩
  faultCause := hc
  run := nofun

theorem Inv.takeFault {kd : ErrKind} {ce : ErrCause} (hi : Inv s) (hc : ce.kind = kd) (hk : kd ≠ .noError) :
    Inv (takeFault kd ce s) :=
  inv_takeFault hi.parameters hi.sourceCanonical hi.destCanonical hi.dictCanonical hc hk

theorem Inv.faulted (hi : Inv s) (h : Faulted s t) : Inv t := by
  obtain ⟨kd, ce, bytes, l, b, rfl, rfl, hn, -⟩ := h
  exact inv_takeFault hi.parameters hi.sourceCanonical (writeString_wf _ _ _ hi.destCanonical) hi.dictCanonical rfl
    (ErrCause.kind_ne_noError hn)

/-! ## The codeword read, and the end of a step -/

theorem Inv.consume (hi : Inv s) (ha : Admitted s) (cw : Code) : Inv (consume cw s) :=
  { hi with run := fun hr => { hi.run hr with cursor := ha } }

theorem Inv.endStep (hi : Inv s) : Inv (endStep s) := by
  unfold Machine.endStep
  split
  · exact { hi with run := fun hr => { hi.run hr with } }
  · exact hi

/-! ## Control codewords -/

/-- An empty dictionary at width 9 meets R30 outside `RUNNING`. -/
theorem runInv_fresh (hv : s.cfg.Valid) (hw : s.w = .w9) (hd : s.d = Config.dInit) (hn : s.n = Config.firstFree)
    (hp : s.phase ≠ .running) (hb : s.bitpos ≤ 8 * s.srcLen) (hwr : s.wr ≤ s.dstCap) (hs : s.stk = []) : RunInv s where
  ceiling := by rw [hd, hw]; rfl
  nextFreeLow := hn.ge
  nextFreeHigh := by rw [hn]; exact le_trans (by decide) hv.1
  belowCeiling := fun _ => by rw [hn, hd]; decide
  aboveHalf := fun h => absurd hw h
  cursor := hb
  written := hwr
  stackEmpty := hs
  previous := fun h => absurd h hp
  chain := fun i h1 h2 => by omega
  fresh := fun _ => ⟨hn, hw⟩

theorem Inv.doReset (hi : Inv s) (hr : s.phase.isRunning = true) : Inv (doReset s) := by
  have h := hi.run hr
  have hk : s.errKind = .noError := hi.errKind_eq (Phase.ne_fault_of_isRunning hr)
  exact { hi with
    faultRecord := ⟨fun he => absurd hk he, nofun⟩
    run := fun _ => runInv_fresh hi.parameters rfl rfl rfl nofun h.cursor h.written h.stackEmpty }

theorem Inv.finish (hi : Inv s) (hr : s.phase.isRunning = true) : Inv (finish s) := by
  have hk : s.errKind = .noError := hi.errKind_eq (Phase.ne_fault_of_isRunning hr)
  exact { hi with faultRecord := ⟨fun he => absurd hk he, nofun⟩, run := nofun }

/-- The first literal after a reset code (R167). -/
theorem Inv.literal {cw : Code} (hi : Inv s) (hr : s.phase.isRunning = true) (hc : cw.toNat ≤ 0xFF)
    (hw : s.wr < s.dstCap) (b : Byte) : Inv (withPhase .running (withPrevious cw (putByte b s))) := by
  have h := hi.run hr
  have hk : s.errKind = .noError := hi.errKind_eq (Phase.ne_fault_of_isRunning hr)
  have hn : cw.toNat < s.n := lt_of_lt_of_le (lt_of_le_of_lt hc (by decide)) h.nextFreeLow
  exact { hi with
    destCanonical := Memory.write_wf _ _ _ hi.destCanonical
    faultRecord := ⟨fun he => absurd hk he, nofun⟩
    run := fun _ => { h with
      written := hw
      previous := fun _ => ⟨hn, isControl_eq_false (.inl hc)⟩
      fresh := fun hp => absurd rfl hp } }

/-! ## Data codewords -/

theorem widen_bits {w : Width} (h : w ≠ .w12) : (widen w).bits = w.bits + 1 := by
  cases w with
  | w12 => exact absurd rfl h
  | _ => rfl

/-- R30 (i) after `GROW`. -/
theorem afterTail_ceiling (h : RunInv s) : (afterTail s).d = 2 ^ (afterTail s).w.bits := by
  rw [afterTail_d, afterTail_w]
  split
  next hg => rw [widen_bits hg.2, h.ceiling, pow_succ, mul_comm]
  next => exact h.ceiling

/-- Below width 12 the add leaves `N < D`: where `N + 1` reaches `D`, `D` doubles (R196). -/
theorem afterTail_belowCeiling (h : RunInv s) (hw : (afterTail s).w ≠ .w12) : (afterTail s).n < (afterTail s).d := by
  rw [afterTail_w] at hw
  rw [afterTail_n, afterTail_d]
  split at hw
  next hg =>
    have := h.belowCeiling hg.2
    rw [if_pos hg]
    omega
  next hg =>
    have := h.belowCeiling hw
    rw [if_neg hg]
    by_contra hle
    exact hg ⟨by omega, hw⟩

theorem afterTail_aboveHalf (h : RunInv s) (hw : (afterTail s).w ≠ .w9) : (afterTail s).d / 2 ≤ (afterTail s).n := by
  rw [afterTail_w] at hw
  rw [afterTail_n, afterTail_d]
  split at hw
  next hg =>
    rw [if_pos hg]
    omega
  next hg =>
    have := h.aboveHalf hw
    rw [if_neg hg]
    omega

/-- The element added at `N` has the old `PW` before it, which is below `N` and no control code (R30 (vii)). -/
theorem LiveChain.afterTail (h : LiveChain s) (hp : s.pw.toNat < s.n) (hc : Code.isControl s.pw = false) :
    LiveChain (afterTail s) := by
  intro i h1 h2 h3
  rw [afterTail_n] at h2
  rw [afterTail_dict]
  by_cases hi : i = s.n
  · subst hi
    exact ⟨_, Store.get?_set_self _ _ _, hp, hc⟩
  · obtain ⟨e, he, hlt, hk⟩ := h i h1 (by omega) h3
    exact ⟨e, by rw [Store.get?_set_ne _ _ hi, he], hlt, hk⟩

theorem RunInv.afterTail (h : RunInv s) (hp : s.phase = .running) (hn : s.n < s.cfg.dictLimit)
    (hle : s.cw.toNat ≤ s.n) (hc : Code.isControl s.cw = false) : RunInv (afterTail s) where
  ceiling := afterTail_ceiling h
  nextFreeLow := Nat.le_succ_of_le h.nextFreeLow
  nextFreeHigh := hn
  belowCeiling := afterTail_belowCeiling h
  aboveHalf := afterTail_aboveHalf h
  cursor := h.cursor
  written := h.written
  stackEmpty := h.stackEmpty
  previous := fun _ => ⟨Nat.lt_succ_of_le hle, hc⟩
  chain := h.chain.afterTail (h.previous hp).1 (h.previous hp).2
  fresh := fun hp' => absurd hp hp'

/-- An output that fits keeps the invariant. -/
theorem Inv.output {bytes : List Byte} (hi : Inv s) (hw : s.wr + bytes.length ≤ s.dstCap) (b : Byte) :
    Inv (withStack [] (withFirst b (afterOutput bytes s))) :=
  { hi with
    destCanonical := writeString_wf _ _ _ hi.destCanonical
    run := fun hr => { hi.run hr with written := hw, stackEmpty := rfl } }

theorem Inv.afterTail (hi : Inv s) (hp : s.phase = .running) (hn : s.n < s.cfg.dictLimit) (hle : s.cw.toNat ≤ s.n)
    (hc : Code.isControl s.cw = false) : Inv (afterTail s) := by
  have h := hi.run (by rw [hp]; rfl)
  exact { hi with
    dictCanonical := DictTable.set_wf _ _ h.nextFreeLow hi.dictCanonical
    run := fun _ => h.afterTail hp hn hle hc }

theorem Inv.completed (hi : Inv s) (h : Completed s t) (hp : s.phase = .running) (hle : s.cw.toNat ≤ s.n)
    (hc : Code.isControl s.cw = false) : Inv t := by
  obtain ⟨b, bytes, rfl, hw, hn⟩ := h
  exact (hi.output hw b).afterTail hp hn hle hc

/-! ## The step -/

/-- Every effect of a step on the codeword in `CW` keeps the invariant. -/
theorem Inv.stepEffect (hi : Inv u) (hr : u.phase.isRunning = true) (h : StepEffect u.cw u t) : Inv t := by
  cases h with
  | firstNotReset => exact hi.takeFault rfl nofun
  | reset => exact (hi.doReset hr).endStep
  | finish => exact hi.finish hr
  | literal _ hc hw => exact (hi.literal hr hc hw _).endStep
  | literalFull => exact hi.takeFault rfl nofun
  | nonliteral => exact hi.takeFault rfl nofun
  | data v hp hc _ hv hn => exact (hi.completed hv hp hn (isControl_eq_false hc)).endStep
  | dataFaulted _ _ _ _ hv => exact hi.faulted hv

theorem Inv.step_running (hi : Inv s) (hr : s.phase.isRunning = true) (h : step s = .next t) : Inv t := by
  rcases step_running_next hr h with ⟨-, rfl⟩ | ⟨ha, cw, -, he⟩
  · exact hi.takeFault rfl nofun
  · exact (hi.consume ha cw).stepEffect hr he

end Invariant

/-! ## The host's turn -/

section HostTurn
variable {s t : State}

theorem step_host (hr : s.phase.isRunning = false) : step s = (hostTurn s).outcome := by
  rw [step, if_neg (by simp [hr])]

/-- Where no step is enabled and the host has nothing to do, nothing moves (R27). -/
theorem step_host_nil (hr : s.phase.isRunning = false) (hq : s.hostQueue = []) :
    step s = .fault (.noStepEnabled s.phase) := by
  rw [step_host hr, hostTurn, hq]
  rfl

theorem step_host_cons {a : HostAction} {rest : List HostAction} (hr : s.phase.isRunning = false)
    (hq : s.hostQueue = a :: rest) : step s = (hostAction a { s with hostQueue := rest }).outcome := by
  rw [step_host hr, hostTurn, hq]

/-- Every action of the host but `START` changes at most the buffers and their lengths, and keeps the memories
canonical (R224). -/
theorem hostAction_next {a : HostAction} (ha : a ≠ .start) (h : (hostAction a s).outcome = .next t) :
    t = { s with src := t.src, dst := t.dst, srcLen := t.srcLen, dstCap := t.dstCap } ∧
      (s.src.wf = true → t.src.wf = true) ∧ (s.dst.wf = true → t.dst.wf = true) := by
  cases a with
  | writeSrc i b =>
    simp only [hostAction] at h
    split at h <;> cases h
    exact ⟨rfl, Memory.write_wf _ _ _, id⟩
  | writeDst i b =>
    simp only [hostAction] at h
    split at h <;> cases h
    exact ⟨rfl, id, Memory.write_wf _ _ _⟩
  | setSrcLen n =>
    simp only [hostAction] at h
    split at h <;> cases h
    exact ⟨rfl, id, id⟩
  | setDstCap n =>
    simp only [hostAction] at h
    split at h <;> cases h
    exact ⟨rfl, id, id⟩
  | start => exact absurd rfl ha

theorem startCommand_accepted (hr : s.phase.isRunning = false) : startCommand s = .ok () (startInvocation s) := by
  rw [startCommand, if_neg (by simp [hr])]

theorem Inv.startInvocation (hi : Inv s) : Inv (startInvocation s) where
  parameters := hi.parameters
  sourceCanonical := hi.sourceCanonical
  destCanonical := hi.destCanonical
  dictCanonical := rfl
  faultRecord := ⟨fun h => absurd rfl h, nofun⟩
  faultCause := rfl
  run := fun _ => runInv_fresh hi.parameters rfl rfl rfl nofun (Nat.zero_le _) (Nat.zero_le _) rfl

theorem Inv.hostAction {a : HostAction} (hi : Inv s) (hr : s.phase.isRunning = false)
    (h : (hostAction a s).outcome = .next t) : Inv t := by
  by_cases ha : a = .start
  · subst ha
    rw [Machine.hostAction, startCommand_accepted hr] at h
    cases h
    exact hi.startInvocation
  · obtain ⟨ht, hsrc, hdst⟩ := hostAction_next ha h
    have hsrc' := hsrc hi.sourceCanonical
    have hdst' := hdst hi.destCanonical
    rw [ht]
    exact { hi with
      sourceCanonical := hsrc'
      destCanonical := hdst'
      run := fun hr' => absurd hr' (by simp [hr]) }

theorem Inv.step_host (hi : Inv s) (hr : s.phase.isRunning = false) (h : step s = .next t) : Inv t := by
  cases hq : s.hostQueue with
  | nil =>
    rw [step_host_nil hr hq] at h
    cases h
  | cons a rest =>
    rw [step_host_cons hr hq] at h
    have hi' : Inv { s with hostQueue := rest } := { hi with run := fun hr' => { hi.run hr' with } }
    exact hi'.hostAction hr h

end HostTurn

/-- Settles O20: a step of the core keeps the invariant effect by effect, a turn of the host action by action. -/
theorem invariantKeptByStep : Obligations.InvariantKeptByStep := by
  intro s t hi h
  cases hr : s.phase.isRunning with
  | true => exact hi.step_running hr h
  | false => exact hi.step_host hr h

/-- Settles O19: at power-on nothing is recorded or listed, and no step is enabled. -/
theorem invariantAtReset : Obligations.InvariantAtReset where
  parameters := by decide
  sourceCanonical := reset_src_wf
  destCanonical := reset_dst_wf
  dictCanonical := reset_dict_wf
  faultRecord := by decide
  faultCause := rfl
  run := nofun

/-! ## The cursor (R25) -/

/-- Nothing a codeword does after it has been read moves the cursor. -/
theorem StepEffect.bitpos {cw : Code} {u t : State} (h : StepEffect cw u t) : t.bitpos = u.bitpos := by
  cases h with
  | firstNotReset | finish | literalFull | nonliteral => rfl
  | reset | literal => exact endStep_bitpos _
  | data v _ _ _ hv _ =>
    obtain ⟨b, bytes, rfl, -⟩ := hv
    exact endStep_bitpos _
  | dataFaulted v _ _ _ hv =>
    obtain ⟨kd, ce, bytes, l, b, rfl, -⟩ := hv
    rfl

/-- Settles O10: only the read moves the cursor, by the width it read with. -/
theorem cursorAdvancesByWidth : Obligations.CursorAdvancesByWidth := by
  intro s t hr h
  rcases step_running_next hr h with ⟨ha, rfl⟩ | ⟨ha, cw, -, he⟩
  · exact ⟨fun ha' => absurd ha' ha, fun _ => rfl⟩
  · exact ⟨fun _ => he.bitpos, fun hn => absurd ha (Nat.not_le.mpr hn)⟩

/-! ## `START` and the host's reading -/

/-- `START` overwrites every register but the host's (R37). -/
theorem startInvocation_congr {s s' : State} (hcfg : s.cfg = s'.cfg) (hsrc : s.src = s'.src) (hdst : s.dst = s'.dst)
    (hlen : s.srcLen = s'.srcLen) (hcap : s.dstCap = s'.dstCap) (hq : s.hostQueue = s'.hostQueue)
    (hdraws : s.draws = s'.draws) : startInvocation s = startInvocation s' := by
  simp only [startInvocation, hcfg, hsrc, hdst, hlen, hcap, hq, hdraws]

theorem exec_start {s : State} (hr : s.phase.isRunning = false) : exec .start s = .next (startInvocation s) := by
  rw [exec, execStart, startCommand_accepted hr, Res.ok_outcome]

/-- Settles O52: both states are accepted, and `START` keeps nothing on which they may differ. -/
theorem startForgetsTheLastInvocation : Obligations.StartForgetsTheLastInvocation := by
  intro s s' hr hr' hcfg hsrc hdst hlen hcap hq hdraws
  rw [exec_start hr, exec_start hr', startInvocation_congr hcfg hsrc hdst hlen hcap hq hdraws]

/-- Settles O54, by the first action of the host's queue. -/
theorem onlyStartLeavesTerminalPhase : Obligations.OnlyStartLeavesTerminalPhase := by
  intro s hr
  refine ⟨step_host_nil hr, fun rest hq => ?_, fun a rest t hq ha h => ?_⟩
  · rw [step_host_cons hr hq]
    rfl
  · rw [step_host_cons hr hq] at h
    exact (hostAction_next ha h).1

/-- Settles O57, phase by phase. -/
theorem hostReadsTheResult : Obligations.HostReadsTheResult := by
  intro s
  refine ⟨fun hp hw => ?_, fun hp hw => ?_, fun hp => ?_⟩
  · simp [State.success, State.short, hostVerdict, hp, hw]
  · simp [State.success, State.short, hostVerdict, hp, hw]
  · simp [State.success, State.short, hostVerdict, hp]

end Sys2Proof.Machine
end

section
/-! The memories of a step (`20_memory.md`): the core writes neither `SRC` nor the configuration (R61), writes `DST` in
order from `WR` on (R74), reads `SRC` below `SRC_LEN` only (R68), and never reads `DST` (R62). -/

namespace Sys2Proof.Machine

/-! ## What a step leaves alone (R61, R33, R40) -/

/-- What no statement of a step writes: `SRC`, `SRC_LEN`, `DST_CAP`, the parameters, the host's queue, the result latch
and the table seed. -/
def inputs (s : State) : Memory × Nat × Nat × Config × List HostAction × OpResult × Nat :=
  (s.src, s.srcLen, s.dstCap, s.cfg, s.hostQueue, s.result, s.tableSeed)

theorem inputs_endStep (s : State) : inputs (endStep s) = inputs s := by
  unfold endStep
  split <;> rfl

theorem StepEffect.inputs {cw : Code} {u t : State} (h : StepEffect cw u t) : inputs t = inputs u := by
  cases h with
  | firstNotReset | finish | literalFull | nonliteral => rfl
  | reset | literal => exact inputs_endStep _
  | data v _ _ _ hv _ =>
    obtain ⟨b, bytes, rfl, -⟩ := hv
    exact inputs_endStep _
  | dataFaulted v _ _ _ hv =>
    obtain ⟨kd, ce, bytes, l, b, rfl, -⟩ := hv
    rfl

theorem step_inputs {s t : State} (hr : s.phase.isRunning = true) (h : step s = .next t) : inputs t = inputs s := by
  rcases step_running_next hr h with ⟨-, rfl⟩ | ⟨-, cw, -, he⟩
  · rfl
  · exact he.inputs

/-- Settles O11: none of the effects of a step writes any of these fields. -/
theorem stepKeepsSourceAndConfiguration : Obligations.StepKeepsSourceAndConfiguration := by
  intro s t hr h
  simpa only [inputs, Prod.mk.injEq] using step_inputs hr h

/-! ## What a step writes (R74, R69) -/

/-- `t` holds the output of `s` and a string written after it, which does not pass `DST_CAP`. -/
def OutputExtended (s t : State) : Prop :=
  ∃ l, t.dst = writeString s.dst s.wr l ∧ t.wr = s.wr + l.length ∧ (s.wr + l.length ≤ s.dstCap ∨ l = [])

theorem OutputExtended.endStep {s t : State} (h : OutputExtended s t) : OutputExtended s (endStep t) := by
  simpa only [OutputExtended, endStep_dst, endStep_wr] using h

theorem OutputExtended.of_eq {s t : State} (hd : t.dst = s.dst) (hw : t.wr = s.wr) : OutputExtended s t :=
  ⟨[], hd, hw, .inr rfl⟩

theorem StepEffect.outputExtended {cw : Code} {u t : State} (h : StepEffect cw u t) : OutputExtended u t := by
  cases h with
  | firstNotReset | finish | literalFull | nonliteral => exact .of_eq rfl rfl
  | reset => exact .endStep (.of_eq rfl rfl)
  | literal _ _ hw => exact .endStep ⟨[litByte cw], rfl, rfl, .inl hw⟩
  | data v _ _ _ hv _ =>
    obtain ⟨b, bytes, rfl, hw, -⟩ := hv
    exact .endStep ⟨b :: bytes, rfl, rfl, .inl hw⟩
  | dataFaulted v _ _ _ hv =>
    obtain ⟨kd, ce, bytes, l, b, rfl, -, -, hw⟩ := hv
    exact ⟨bytes, rfl, rfl, hw⟩

theorem step_outputExtended {s t : State} (hr : s.phase.isRunning = true) (h : step s = .next t) :
    OutputExtended s t := by
  rcases step_running_next hr h with ⟨-, rfl⟩ | ⟨-, cw, -, he⟩
  · exact .of_eq rfl rfl
  · exact he.outputExtended

/-- A string reads back at every address it covers, whatever memory it is written to. -/
theorem writeString_read_covered (m : Memory) {a i : Nat} {l : List Byte} (h1 : a ≤ i) (h2 : i < a + l.length) :
    (writeString m a l).read i = l[i - a]? := by
  obtain ⟨j, rfl⟩ := Nat.exists_eq_add_of_le h1
  have hj : j < l.length := by omega
  rw [writeString_read_inside m a l hj, Nat.add_sub_cancel_left, List.getElem?_eq_getElem hj]

/-- Settles O12: a step writes one string, at the old `WR`. -/
theorem destinationWrittenInOrder : Obligations.DestinationWrittenInOrder := by
  intro s t hr h
  obtain ⟨l, hd, hw, hcap⟩ := step_outputExtended hr h
  rw [hd, hw]
  refine ⟨Nat.le_add_right _ _, hcap.imp_right ?_, fun a h1 h2 => ?_, fun a ha => writeString_read_outside _ _ _ ha⟩
  · rintro rfl
    rfl
  · rw [writeString_read_covered _ h1 h2, List.getElem?_eq_getElem (by omega)]
    exact Option.some_ne_none _

/-- Settles O46, from the laws of one byte and of a string. -/
theorem writesReadBack : Obligations.WritesReadBack := by
  intro m a l
  refine ⟨fun b i => ?_, fun j hj => ?_, fun i hi => writeString_read_outside m a l hi, writeString_wf m a l⟩
  · split
    next hi => rw [hi, Memory.read_write_self]
    next hi => exact Memory.read_write_ne m b hi
  · rw [writeString_read_inside m a l hj, List.getElem?_eq_getElem hj]

/-! ## Other contents of the memories (R62, R68) -/

/-- The state with other memories. -/
def withMemories (src dst : Memory) (s : State) : State := { s with src := src, dst := dst }

/-- `s` and `s'` are reached from `s₀`, and from `s₀` with the memories `src` and `dst`, by writing the same string at
`WR`; they differ in nothing but the memories, and the sources agree below `SRC_LEN`. -/
def SameWrites (s₀ : State) (src dst : Memory) (s s' : State) : Prop :=
  ∃ l, s' = withMemories src (writeString dst s₀.wr l) s ∧ s.dst = writeString s₀.dst s₀.wr l ∧
    s.wr = s₀.wr + l.length ∧ ∀ a, a < s.srcLen → src.read a = s.src.read a

section SameWrites
variable {s₀ s s' : State} {src dst : Memory}

/-- An update that neither reads nor writes the memories, and leaves `WR` and `SRC_LEN` alone, keeps the relation. -/
theorem SameWrites.update {f : State → State} (h : SameWrites s₀ src dst s s')
    (hf : ∀ m m', f (withMemories m m' s) = withMemories m m' (f s)) (hw : (f s).wr = s.wr)
    (hl : (f s).srcLen = s.srcLen) : SameWrites s₀ src dst (f s) (f s') := by
  obtain ⟨l, rfl, hd, hwr, hs⟩ := h
  have hkeep : f s = withMemories s.src s.dst (f s) := hf s.src s.dst
  refine ⟨l, hf _ _, (congrArg State.dst hkeep).trans hd, hw.trans hwr, fun a ha => ?_⟩
  rw [hl] at ha
  exact (hs a ha).trans (congrArg (fun u => u.src.read a) hkeep.symm)

/-- The same byte is written at the same `WR`. -/
theorem SameWrites.putByte (b : Byte) (h : SameWrites s₀ src dst s s') :
    SameWrites s₀ src dst (putByte b s) (putByte b s') := by
  obtain ⟨l, rfl, hd, hwr, hs⟩ := h
  refine ⟨l ++ [b], ?_, ?_, ?_, hs⟩
  · simp [Machine.putByte, withMemories, writeString_append, hwr]
  · simp [writeString_append, hd, hwr]
  · simp [hwr, Nat.add_assoc]

theorem SameWrites.takeFault (kd : ErrKind) (ce : ErrCause) (h : SameWrites s₀ src dst s s') :
    SameWrites s₀ src dst (takeFault kd ce s) (takeFault kd ce s') :=
  h.update (f := Machine.takeFault kd ce) (fun _ _ => rfl) rfl rfl

theorem SameWrites.withStack (l : List Byte) (h : SameWrites s₀ src dst s s') :
    SameWrites s₀ src dst (withStack l s) (withStack l s') :=
  h.update (f := Machine.withStack l) (fun _ _ => rfl) rfl rfl

theorem emit_sameWrites (b : Byte) (h : SameWrites s₀ src dst s s') :
    (emit b s).Lockstep (SameWrites s₀ src dst) (emit b s') := by
  have hfull := h.takeFault .bufferOverrun .destFull
  have hput := h.putByte b
  obtain ⟨l, rfl, -⟩ := h
  exact .ite (.raised hfull) (.ok () hput)

theorem stkPush_sameWrites (b : Byte) (h : SameWrites s₀ src dst s s') :
    (stkPush b s).Lockstep (SameWrites s₀ src dst) (stkPush b s') := by
  have hfull := h.takeFault .internalLimitExceeded .stackFull
  have hpush := h.withStack (b :: s.stk)
  obtain ⟨l, rfl, -⟩ := h
  exact .ite (.raised hfull) (.ok () hpush)

theorem stkTop_sameWrites (h : SameWrites s₀ src dst s s') :
    (stkTop s).Lockstep (SameWrites s₀ src dst) (stkTop s') := by
  have hs : s'.stk = s.stk := by
    obtain ⟨l, rfl, -⟩ := h
    rfl
  rw [stkTop, stkTop, hs]
  split
  · exact .refused _
  · exact .ok _ h

/-- The walk reads the dictionary and the stack alone. -/
theorem chainWalk_sameWrites (fuel bound : Nat) (k : Code) (h : SameWrites s₀ src dst s s') :
    (chainWalk fuel bound k s).Lockstep (SameWrites s₀ src dst) (chainWalk fuel bound k s') := by
  induction fuel generalizing bound k s s' with
  | zero => exact .raised (h.takeFault _ _)
  | succ f ih =>
    have hread : dictRead s' k.toNat = dictRead s k.toNat := by
      obtain ⟨l, rfl, -⟩ := h
      exact dictRead_congr rfl rfl _
    have hbroken : (raise .corruptStream .chainInconsistent s : Res Unit).Lockstep (SameWrites s₀ src dst)
        (raise .corruptStream .chainInconsistent s') := .raised (h.takeFault _ _)
    rw [chainWalk, chainWalk, hread]
    exact .ite (.ite hbroken ((stkPush_sameWrites _ h).bind (fun _ _ => id) fun _ _ _ => ih _ _))
      (.ite hbroken (stkPush_sameWrites _ h))

theorem flushBytes_sameWrites (l : List Byte) (h : SameWrites s₀ src dst s s') :
    (flushBytes l s).Lockstep (SameWrites s₀ src dst) (flushBytes l s') := by
  induction l generalizing s s' with
  | nil => exact .ok () (h.withStack [])
  | cons b rest ih => exact (emit_sameWrites b (h.withStack rest)).bind (fun _ _ => id) fun _ _ _ => ih

theorem emitString_sameWrites (k : Code) (h : SameWrites s₀ src dst s s') :
    (emitString k s).Lockstep (SameWrites s₀ src dst) (emitString k s') := by
  have hwalk := chainWalk_sameWrites (k.toNat + 1) s.n k h
  obtain ⟨l, rfl, -⟩ := h
  refine Res.Lockstep.bind (R := SameWrites s₀ src dst) hwalk (fun _ _ => id) fun _ t t' ht => ?_
  refine (stkTop_sameWrites ht).bind (fun _ _ => id) fun b u u' hu => ?_
  have hflush := flushBytes_sameWrites u.stk (hu.update (f := withFirst b) (fun _ _ => rfl) rfl rfl)
  obtain ⟨l', rfl, -⟩ := hu
  exact hflush

theorem tail_sameWrites (h : SameWrites s₀ src dst s s') :
    (tail s).Lockstep (SameWrites s₀ src dst) (tail s') := by
  have hadd := h.update (f := afterTail) (fun _ _ => rfl) rfl rfl
  have hfull := h.takeFault .internalLimitExceeded .dictFull
  obtain ⟨l, rfl, -⟩ := h
  by_cases hn : s.n < s.cfg.dictLimit
  · rw [tail_room hn, tail_room (s := withMemories src (writeString dst s₀.wr l) s) hn]
    exact .ok () hadd
  · rw [tail_full (Nat.not_lt.mp hn),
      tail_full (s := withMemories src (writeString dst s₀.wr l) s) (Nat.not_lt.mp hn)]
    exact .raised hfull

theorem knownCode_sameWrites (h : SameWrites s₀ src dst s s') :
    (knownCode s).Lockstep (SameWrites s₀ src dst) (knownCode s') := by
  have hs := emitString_sameWrites s.cw h
  obtain ⟨l, rfl, -⟩ := h
  exact hs.bind (fun _ _ => id) fun _ _ _ => tail_sameWrites

theorem kwkwkCode_sameWrites (h : SameWrites s₀ src dst s s') :
    (kwkwkCode s).Lockstep (SameWrites s₀ src dst) (kwkwkCode s') := by
  have hs := emitString_sameWrites s.pw h
  obtain ⟨l, rfl, -⟩ := h
  refine hs.bind (fun _ _ => id) fun _ t t' ht => ?_
  have he := emit_sameWrites t.c ht
  obtain ⟨l', rfl, -⟩ := ht
  exact he.bind (fun _ _ => id) fun _ _ _ => tail_sameWrites

theorem dataCodeword_sameWrites (h : SameWrites s₀ src dst s s') :
    (dataCodeword s).Lockstep (SameWrites s₀ src dst) (dataCodeword s') := by
  have hinvalid := h.takeFault .corruptStream .codeBeyondNextFree
  have hknown := knownCode_sameWrites h
  have hkwkwk := kwkwkCode_sameWrites h
  obtain ⟨l, rfl, -⟩ := h
  exact .ite (.raised hinvalid) (.ite hknown hkwkwk)

theorem firstLiteral_sameWrites (h : SameWrites s₀ src dst s s') :
    (firstLiteral s).Lockstep (SameWrites s₀ src dst) (firstLiteral s') := by
  have he := emit_sameWrites (litByte s.cw) h
  obtain ⟨l, rfl, -⟩ := h
  exact he.bind (fun _ _ => id) fun _ t t' ht =>
    .ok () (ht.update (f := fun u => withPhase .running (withPrevious u.cw u)) (fun _ _ => rfl) rfl rfl)

/-- At or beyond `SRC_LEN` the BitReader takes 0x00 without a read (R68). -/
theorem SameWrites.readAlike (h : SameWrites s₀ src dst s s') : ReadAlike s s' := by
  obtain ⟨l, rfl, -, -, hs⟩ := h
  refine ⟨rfl, rfl, rfl, fun a => ?_⟩
  simp only [srcByte]
  exact ite_congr rfl (hs a) fun _ => rfl

end SameWrites

theorem sameWrites_stepRelation (s₀ : State) (src dst : Memory) : StepRelation (SameWrites s₀ src dst) where
  phase := by rintro s _ ⟨l, rfl, -⟩; rfl
  cw := by rintro s _ ⟨l, rfl, -⟩; rfl
  read := fun _ _ => SameWrites.readAlike
  takeFault := fun kd ce _ _ => SameWrites.takeFault kd ce
  consume := fun cw _ _ h => h.update (f := consume cw) (fun _ _ => rfl) rfl rfl
  doReset := fun _ _ h => h.update (fun _ _ => rfl) rfl rfl
  finish := fun _ _ h => h.update (f := finish) (fun _ _ => rfl) rfl rfl
  firstLiteral := fun _ _ => firstLiteral_sameWrites
  data := fun _ _ h _ => dataCodeword_sameWrites h
  endStep := fun s _ h =>
    h.update (fun m m' => by unfold endStep withMemories; split <;> rfl) (endStep_wr s) (endStep_srcLen s)

/-- With any other destination, and any source that agrees below `SRC_LEN`, a step stops alike, or writes the same
string and differs in nothing but the memories. -/
theorem step_withMemories {s : State} {src : Memory} (dst : Memory) (hr : s.phase.isRunning = true)
    (hs : ∀ a, a < s.srcLen → src.read a = s.src.read a) :
    (∀ t, step s = .next t → ∃ l,
      step (withMemories src dst s) = .next (withMemories src (writeString dst s.wr l) t) ∧
      t.dst = writeString s.dst s.wr l ∧ t.wr = s.wr + l.length) ∧
    (∀ f, step s = .fault f → step (withMemories src dst s) = .fault f) := by
  obtain ⟨hnext, hfault⟩ := (sameWrites_stepRelation s src dst).step hr ⟨[], rfl, rfl, rfl, hs⟩
  refine ⟨fun t ht => ?_, hfault⟩
  obtain ⟨_, ht', l, rfl, hd, hw, -⟩ := hnext t ht
  exact ⟨l, ht', hd, hw⟩

/-- Settles O14: `step_withMemories` with the same source. -/
theorem stepNeverReadsDestination : Obligations.StepNeverReadsDestination := by
  intro s m hr
  obtain ⟨hnext, hfault⟩ := step_withMemories m hr fun _ _ => rfl
  refine ⟨fun t ht => ?_, hfault⟩
  obtain ⟨l, ht', hd, hw⟩ := hnext t ht
  obtain ⟨hsrc, -⟩ := stepKeepsSourceAndConfiguration s t hr ht
  refine ⟨writeString m s.wr l, ?_, fun a h1 h2 => ?_⟩
  · refine ht'.trans ?_
    rw [← hsrc]
    rfl
  · rw [hw] at h2
    rw [hd, writeString_read_covered m h1 h2, writeString_read_covered s.dst h1 h2]

/-- Settles O13: `step_withMemories` with the same destination; a step in a running phase is never refused. -/
theorem stepIgnoresBytesBeyondSource : Obligations.StepIgnoresBytesBeyondSource := by
  intro s m hr hm
  obtain ⟨hnext, hfault⟩ := step_withMemories s.dst hr hm
  have hsame : ∀ t, step s = .next t → step { s with src := m } = .next { t with src := m } := by
    intro t ht
    obtain ⟨l, ht', hd, -⟩ := hnext t ht
    rw [← hd] at ht'
    exact ht'
  rcases step_running hr with ⟨-, ht⟩ | ⟨-, cw, t, -, ht, -⟩ | ⟨-, a, -, hf⟩
  · rw [hsame _ ht, ht, onNext]
  · rw [hsame t ht, ht, onNext]
  · rw [hf, onNext]
    exact hfault _ hf

end Sys2Proof.Machine
end

section
/-! The encoding (`30_encoding.md`): static decoding and the encoder undo each other and follow the opcode table (R94 to
R97); a codeword is read from the stream bit by bit (R120, R125), which undoes the packer (R105) and is the host's check
of a container (R93); and the width schedule (R104) moves as the decoder does. -/

namespace Sys2Proof.Machine

/-! ## Static decoding (R94, R96) -/

theorem decode_of_fits {w : Width} {cw : Code} (h : cw.toNat < 2 ^ w.bits) : decode w cw = .ok (classify w cw) := by
  rw [decode, Code.fits, decide_eq_true h, if_pos rfl]

theorem decode_of_not_fits {w : Width} {cw : Code} (h : 2 ^ w.bits ≤ cw.toNat) :
    decode w cw = .error (.codewordTooWide w cw) := by
  rw [decode, Code.fits, decide_eq_false (Nat.not_lt.mpr h), if_neg Bool.false_ne_true]

theorem classify_literal {cw : Code} (w : Width) (h : cw.toNat ≤ 0xFF) : classify w cw = .lit w (litByte cw) := by
  rw [classify, if_neg (ne_codeReset (.inl h)), if_neg (ne_codeEnd (.inl h)), if_pos ((high_bits_zero_iff cw).mpr h),
    litByte]

theorem classify_composite {cw : Code} (w : Width) (h : Config.firstFree ≤ cw.toNat) : classify w cw = .code w cw := by
  rw [classify, if_neg (ne_codeReset (.inr h)), if_neg (ne_codeEnd (.inr h)),
    if_neg (mt (high_bits_zero_iff cw).mp (not_literal h))]

/-- Only the reset code decodes to `RESET`. -/
theorem decode_eq_reset_iff (w : Width) (cw : Code) : decode w cw = .ok (.reset w) ↔ cw = Config.codeReset := by
  constructor
  · intro h
    by_cases hf : cw.toNat < 2 ^ w.bits
    · rw [decode_of_fits hf] at h
      rcases classify_cases w cw with ⟨hc, -⟩ | ⟨-, e⟩ | ⟨-, e⟩ | ⟨-, e⟩
      · exact hc
      all_goals rw [e] at h; cases h
    · rw [decode_of_not_fits (Nat.not_lt.mp hf)] at h
      cases h
  · rintro rfl
    cases w <;> decide

/-! ## The encoder (R94, R95, R97) -/

/-- The byte of the codeword of a literal is the literal (R95). -/
theorem litByte_litCode (b : Byte) : litByte (litCode b) = b := by
  apply BitVec.eq_of_toNat_eq
  simp only [litByte, litCode, BitVec.toNat_setWidth]
  omega

theorem litCode_toNat_le (b : Byte) : (litCode b).toNat ≤ 0xFF := by
  simp only [litCode, BitVec.toNat_setWidth]
  omega

theorem firstFree_le_of_validCode {w : Width} {cw : Code} (h : Code.validCode w cw = true) :
    Config.firstFree ≤ cw.toNat := by
  simp only [Code.validCode, Code.isComposite, Bool.and_eq_true, decide_eq_true_eq] at h
  exact h.1

/-- The codeword of a well-formed operation fits its width (R90). -/
theorem encode_fits (i : Instr) : Laws.EncodingFits.Statement i := by
  cases i with
  | reset w => exact Laws.EncodingFits.reset w
  | endStream w => exact Laws.EncodingFits.endStream w
  | lit w b => exact Laws.EncodingFits.lit w b
  | code w cw => exact Laws.EncodingFits.code w cw
  | kwkwk w cw => exact Laws.EncodingFits.kwkwk w cw
  | invalid w cw => exact Laws.EncodingFits.invalid w cw
  | _ => rintro - _ ⟨⟩

/-- Static decoding undoes the encoder, up to the two rows that share the words of `CODE` (R97). -/
theorem classify_encode {i : Instr} {c : Codeword} (hi : i.wellFormed = true) (hc : encode i = some c) :
    classify c.width c.value = i.staticName := by
  cases i with
  | reset w => obtain rfl := Option.some.inj hc; rfl
  | endStream w => obtain rfl := Option.some.inj hc; rfl
  | lit w b =>
    obtain rfl := Option.some.inj hc
    refine (classify_literal w (litCode_toNat_le b)).trans ?_
    rw [litByte_litCode, Instr.staticName]
  | code w cw | kwkwk w cw | invalid w cw =>
    obtain rfl := Option.some.inj hc
    exact classify_composite w (firstFree_le_of_validCode hi)
  | _ => cases hc

/-- Settles O3: the codeword fits its width, and static decoding undoes the encoder. -/
theorem encodeThenDecode : Obligations.EncodeThenDecode := by
  intro i c hi hc
  rw [decode_of_fits (encode_fits i hi c hc), classify_encode hi hc]

/-- Encoding undoes static decoding: no bit of the codeword is dropped. -/
theorem encode_classify (w : Width) (cw : Code) : encode (classify w cw) = some ⟨w, cw⟩ := by
  rcases classify_cases w cw with ⟨rfl, e⟩ | ⟨rfl, e⟩ | ⟨h, e⟩ | ⟨-, e⟩ <;> rw [e]
  · rfl
  · rfl
  · exact congrArg (fun v => some (Codeword.mk w v)) (litCode_litByte h)
  · rfl

theorem classify_wellFormed {w : Width} {cw : Code} (hf : cw.toNat < 2 ^ w.bits) :
    (classify w cw).wellFormed = true := by
  rcases classify_cases w cw with ⟨-, e⟩ | ⟨-, e⟩ | ⟨-, e⟩ | ⟨h, e⟩ <;> rw [e]
  · rfl
  · rfl
  · rfl
  · simp only [Instr.wellFormed, Code.validCode, Code.isComposite, Code.fits, Bool.and_eq_true, decide_eq_true_eq]
    exact ⟨h, hf⟩

/-! ## The opcode table (R96) -/

/-- The `W` low bits of a codeword value. -/
def valueMask (w : Width) : Code := BitVec.ofNat 12 (2 ^ w.bits - 1)

/-- The rows of every width are one table, cut to the bits of the width. -/
theorem opcodeRows_eq (w : Width) : opcodeRows w =
    [⟨Config.codeReset, valueMask w, .reset⟩, ⟨Config.codeEnd, valueMask w, .endStream⟩,
      ⟨0#12, valueMask w &&& 0xF00#12, .lit⟩, ⟨0#12, 0#12, .code⟩] := by
  cases w <;> rfl

theorem and_valueMask {w : Width} {cw : Code} (h : cw.toNat < 2 ^ w.bits) : cw &&& valueMask w = cw := by
  have hm : (valueMask w).toNat = 2 ^ w.bits - 1 := by cases w <;> rfl
  apply BitVec.eq_of_toNat_eq
  rw [BitVec.toNat_and, hm, Nat.and_two_pow_sub_one_of_lt_two_pow h]

/-- Under the masks of the width a fitting codeword matches a row exactly when it passes the static decoder's test. -/
theorem classify_codewordClass {w : Width} {cw : Code} (h : cw.toNat < 2 ^ w.bits) :
    (classify w cw).codewordClass = firstMatch (opcodeRows w) cw := by
  simp only [opcodeRows_eq, firstMatch, ← BitVec.and_assoc, and_valueMask h, BitVec.and_zero, if_true]
  unfold classify
  split_ifs <;> rfl

/-- Settles O2: a value of the width is classified by the table's first match, and any other is refused. -/
theorem decodeFollowsOpcodeTable : Obligations.DecodeFollowsOpcodeTable := fun w cw =>
  ⟨fun h => ⟨classify w cw, decode_of_fits h, classify_codewordClass h, classify_wellFormed h, encode_classify w cw⟩,
    decode_of_not_fits⟩

/-- Settles O1, by running the decoder on the nine words. -/
theorem specWordsDecode : Obligations.SpecWordsDecode := by
  unfold Obligations.SpecWordsDecode
  decide

/-! ## A codeword is read bit by bit (R64, R65, R120, R125) -/

theorem Width.bits_le (w : Width) : w.bits ≤ 12 := by
  cases w <;> decide

/-- Bit `j` of the window over three consecutive bytes is bit `j mod 8` of byte `j div 8` (R64, R65). -/
theorem windowOf_getLsbD (f : Nat → Byte) {j : Nat} (hj : j < 24) :
    (windowOf (f 0) (f 1) (f 2)).getLsbD j = (f (j / 8)).getLsbD (j % 8) := by
  simp only [windowOf, BitVec.getLsbD_or, BitVec.getLsbD_shiftLeft, BitVec.getLsbD_setWidth]
  rcases (by omega : j / 8 = 0 ∨ j / 8 = 1 ∨ j / 8 = 2) with h | h | h <;> rw [h]
  · have h8 : j < 8 := by omega
    simp [h8, show j < 16 by omega, hj, Nat.mod_eq_of_lt h8]
  · have h0 : (f 0).getLsbD j = false := BitVec.getLsbD_of_ge _ _ (by omega)
    simp [h0, hj, show ¬ j < 8 by omega, show j < 16 by omega, show j % 8 < 24 by omega, show j - 8 = j % 8 by omega]
  · have h0 : (f 0).getLsbD j = false := BitVec.getLsbD_of_ge _ _ (by omega)
    have h1 : (f 1).getLsbD (j - 8) = false := BitVec.getLsbD_of_ge _ _ (by omega)
    simp [h0, h1, hj, show ¬ j < 16 by omega, show j % 8 < 24 by omega, show j - 16 = j % 8 by omega]

theorem widthMask_getLsbD (w : Width) {j : Nat} (hj : j < 24) : (widthMask w).getLsbD j = decide (j < w.bits) := by
  have h : widthMask w = BitVec.ofNat 24 (2 ^ w.bits - 1) := by cases w <;> rfl
  rw [h, BitVec.getLsbD_ofNat, Nat.testBit_two_pow_sub_one, decide_eq_true hj, Bool.true_and]

/-- Bit `t` of a codeword `s` bits into the first of three consecutive bytes (R120, R125). -/
theorem codewordAt_getLsbD (f : Nat → Byte) {s : Nat} (hs : s < 8) (w : Width) (t : Nat) :
    (codewordAt (windowOf (f 0) (f 1) (f 2)) s w).getLsbD t =
      (decide (t < w.bits) && (f ((s + t) / 8)).getLsbD ((s + t) % 8)) := by
  have hw := Width.bits_le w
  simp only [codewordAt, BitVec.getLsbD_setWidth, BitVec.getLsbD_and, BitVec.getLsbD_ushiftRight]
  by_cases ht : t < w.bits
  · rw [windowOf_getLsbD f (by omega), widthMask_getLsbD w (by omega)]
    simp [ht, show t < 12 by omega]
  · by_cases ht' : t < 12
    · simp [ht, widthMask_getLsbD w (show t < 24 by omega)]
    · simp [ht, ht']

/-- The codeword that `BR.READ` returns, by the bits of the stream. -/
theorem brRead_getLsbD {s u : State} {cw : Code} (h : brRead s = .ok cw u) (t : Nat) :
    cw.getLsbD t = (decide (t < s.w.bits) && streamBit s (s.bitpos + t)) := by
  rcases brRead_cases s with ⟨-, e⟩ | ⟨-, b0, b1, b2, h0, h1, h2, e⟩ | ⟨-, a, -, e⟩ <;> rw [e] at h <;> cases h
  have hbits := codewordAt_getLsbD (fun k => (srcByte s (s.bitpos / 8 + k)).getD 0#8) (s := s.bitpos % 8) (by omega)
    s.w t
  simp only [Nat.add_zero, h0, h1, h2, Option.getD_some] at hbits
  rw [hbits, streamBit, show s.bitpos / 8 + (s.bitpos % 8 + t) / 8 = (s.bitpos + t) / 8 by omega,
    show (s.bitpos % 8 + t) % 8 = (s.bitpos + t) % 8 by omega]

/-- An admitted read from a source that the host has placed returns a codeword. -/
theorem brRead_placed {s : State} (ha : Admitted s) (hp : SourcePlaced s) :
    ∃ cw, brRead s = .ok cw (consume cw s) := by
  rcases brRead_cases s with ⟨hn, -⟩ | ⟨-, b0, b1, b2, -, -, -, e⟩ | ⟨-, a, hb, -⟩
  · exact absurd ha hn
  · exact ⟨_, e⟩
  · obtain ⟨b, hb'⟩ := srcByte_placed hp a
    rw [hb] at hb'
    cases hb'

/-! ## The packer (R105) -/

theorem totalBits_append (l l' : List Codeword) : totalBits (l ++ l') = totalBits l + totalBits l' := by
  induction l with
  | nil => simp [totalBits]
  | cons c l ih => simp only [List.cons_append, totalBits, ih, Nat.add_assoc]

theorem bytesOf_length (count n : Nat) : (bytesOf count n).length = count := by
  induction count generalizing n with
  | zero => rfl
  | succ count ih => rw [bytesOf, List.length_cons, ih]

theorem byteAt_cons_zero (b : Byte) (l : List Byte) : byteAt (b :: l) 0 = b := rfl

theorem byteAt_cons_succ (b : Byte) (l : List Byte) (a : Nat) : byteAt (b :: l) (a + 1) = byteAt l a := rfl

/-- Bit `p` of an integer stands at bit `p mod 8` of byte `p div 8`. -/
theorem bytesOf_getLsbD (count n p : Nat) :
    (byteAt (bytesOf count n) (p / 8)).getLsbD (p % 8) = (decide (p < 8 * count) && n.testBit p) := by
  induction count generalizing n p with
  | zero => simp [bytesOf, byteAt]
  | succ count ih =>
    rw [bytesOf]
    by_cases hp : p < 8
    · rw [Nat.div_eq_of_lt hp, Nat.mod_eq_of_lt hp, byteAt_cons_zero, BitVec.getLsbD_ofNat, decide_eq_true hp,
        decide_eq_true (by omega)]
    · obtain ⟨q, rfl⟩ := Nat.exists_eq_add_of_le (Nat.not_lt.mp hp)
      rw [show (8 + q) / 8 = q / 8 + 1 by omega, show (8 + q) % 8 = q % 8 by omega, byteAt_cons_succ, ih,
        show n / 256 = n / 2 ^ 8 from rfl, Nat.testBit_div_two_pow, Nat.add_comm q]
      congr 1
      exact decide_eq_decide.mpr (by omega)

theorem totalBits_le_pack (l : List Codeword) : totalBits l ≤ 8 * (pack l).length := by
  rw [pack, bytesOf_length]
  omega

/-- Stream bit `p` of the packed bytes is bit `p` of the packed integer. -/
theorem pack_getLsbD {l : List Codeword} {p : Nat} (hp : p < totalBits l) :
    (byteAt (pack l) (p / 8)).getLsbD (p % 8) = (packNat l).testBit p := by
  rw [pack, bytesOf_getLsbD, decide_eq_true (by omega), Bool.true_and]

/-- The first codeword has the lowest bits of the packed integer. -/
theorem packNat_testBit_head {c : Codeword} (hc : c.value.toNat < 2 ^ c.width.bits) (rest : List Codeword) {t : Nat}
    (ht : t < c.width.bits) : (packNat (c :: rest)).testBit t = c.value.getLsbD t := by
  rw [packNat, Nat.add_comm, Nat.testBit_two_pow_mul_add _ hc, if_pos ht, BitVec.testBit_toNat]

/-- The codewords before position `p_j` take exactly the bits below it. -/
theorem packNat_testBit_append {l : List Codeword} (hl : ∀ x ∈ l, x.value.toNat < 2 ^ x.width.bits)
    (l' : List Codeword) (t : Nat) : (packNat (l ++ l')).testBit (totalBits l + t) = (packNat l').testBit t := by
  induction l with
  | nil => simp [totalBits]
  | cons c l ih =>
    obtain ⟨hc, hl⟩ := List.forall_mem_cons.mp hl
    rw [List.cons_append, packNat, totalBits, Nat.add_comm, Nat.testBit_two_pow_mul_add _ hc, if_neg (by omega),
      show c.width.bits + totalBits l + t - c.width.bits = totalBits l + t by omega, ih hl]

/-- Stream bit `p_j + t` of the packed stream is bit `t` of codeword `j` (R105). -/
theorem pack_getLsbD_codeword {before after : List Codeword} {c : Codeword}
    (hl : ∀ x ∈ before ++ c :: after, x.value.toNat < 2 ^ x.width.bits) {t : Nat} (ht : t < c.width.bits) :
    (byteAt (pack (before ++ c :: after)) ((totalBits before + t) / 8)).getLsbD ((totalBits before + t) % 8) =
      c.value.getLsbD t := by
  obtain ⟨hbefore, hc, -⟩ := List.forall_mem_append.mp hl |>.imp_right List.forall_mem_cons.mp
  rw [pack_getLsbD (by simp only [totalBits_append, totalBits]; omega), packNat_testBit_append hbefore,
    packNat_testBit_head hc _ ht]

/-- The source is a list of bytes: each stands where the list has it (R39, R246). -/
def SourceIs (bytes : List Byte) (s : State) : Prop :=
  s.srcLen = bytes.length ∧ ∀ a b, bytes[a]? = some b → s.src.read a = some b

theorem SourceIs.srcByte {bytes : List Byte} {s : State} (h : SourceIs bytes s) (a : Nat) :
    srcByte s a = some (byteAt bytes a) := by
  obtain ⟨hlen, hread⟩ := h
  rw [Machine.srcByte, byteAt, List.getD_eq_getElem?_getD, hlen]
  split
  next ha => rw [List.getElem?_eq_getElem ha, Option.getD_some, hread a _ (List.getElem?_eq_getElem ha)]
  next ha => rw [List.getElem?_eq_none (Nat.not_lt.mp ha), Option.getD_none]

theorem SourceIs.placed {bytes : List Byte} {s : State} (h : SourceIs bytes s) : SourcePlaced s := by
  obtain ⟨hlen, hread⟩ := h
  intro a ha
  exact ⟨_, hread a _ (List.getElem?_eq_getElem (hlen ▸ ha))⟩

theorem SourceIs.streamBit {bytes : List Byte} {s : State} (h : SourceIs bytes s) (p : Nat) :
    streamBit s p = (byteAt bytes (p / 8)).getLsbD (p % 8) := by
  rw [Machine.streamBit, h.srcByte, Option.getD_some]

/-- A codeword has no bit at or above its width. -/
theorem getLsbD_of_fits {w : Width} {cw : Code} (h : cw.toNat < 2 ^ w.bits) {t : Nat} (ht : ¬ t < w.bits) :
    cw.getLsbD t = false := by
  rw [← BitVec.testBit_toNat]
  exact Nat.testBit_lt_two_pow (h.trans_le (Nat.pow_le_pow_right (by decide) (Nat.not_lt.mp ht)))

/-- Settles O4: the read is admitted and its bytes are placed, and bit by bit what it returns is the codeword packed
there. -/
theorem packThenRead : Obligations.PackThenRead := by
  intro before after c s hl hlen hread hpos hw
  have hsrc : SourceIs (pack (before ++ c :: after)) s := ⟨hlen, hread⟩
  have ha : Admitted s := by
    have hT := totalBits_le_pack (before ++ c :: after)
    simp only [totalBits_append, totalBits] at hT
    rw [Admitted, hlen, hpos, hw]
    omega
  obtain ⟨cw, hr⟩ := brRead_placed ha hsrc.placed
  have hcw : cw = c.value := by
    refine BitVec.eq_of_getLsbD_eq fun t _ => ?_
    rw [brRead_getLsbD hr, hw, hpos, hsrc.streamBit]
    by_cases ht : t < c.width.bits
    · rw [decide_eq_true ht, Bool.true_and, pack_getLsbD_codeword hl ht]
    · rw [decide_eq_false ht, Bool.false_and, getLsbD_of_fits (hl c (by simp)) ht]
  rw [exec, execBrRead, hr, Res.ok_outcome, hcw, consume, hpos, hw]

/-! ## The first codeword of a container (R93, R245) -/

theorem codeReset_getLsbD (t : Nat) : Config.codeReset.getLsbD t = decide (8 = t) := by
  rw [show Config.codeReset = BitVec.twoPow 12 8 from rfl, BitVec.getLsbD_twoPow, decide_eq_true (by decide),
    Bool.true_and]

theorem and_one_eq_one_iff (b : Byte) : b &&& 0x01#8 = 0x01#8 ↔ b.getLsbD 0 = true := by
  rw [BitVec.and_one_eq_setWidth_ofBool_getLsbD]
  cases b.getLsbD 0 <;> decide

/-- Nine bits at bit offset 0 are the reset code exactly when the first byte is zero and bit 0 of the second is set. -/
theorem codewordAt_eq_codeReset_iff (b0 b1 b2 : Byte) :
    codewordAt (windowOf b0 b1 b2) 0 .w9 = Config.codeReset ↔ b0 = 0x00#8 ∧ b1 &&& 0x01#8 = 0x01#8 := by
  have hbits : ∀ t, (codewordAt (windowOf b0 b1 b2) 0 .w9).getLsbD t =
      (decide (t < 9) && (byteAt [b0, b1, b2] (t / 8)).getLsbD (t % 8)) := fun t => by
    have h := codewordAt_getLsbD (byteAt [b0, b1, b2]) (s := 0) (by decide) .w9 t
    rw [Nat.zero_add] at h
    exact h
  rw [and_one_eq_one_iff]
  constructor
  · intro h
    simp only [h, codeReset_getLsbD] at hbits
    refine ⟨BitVec.eq_of_getLsbD_eq fun t ht => ?_, (hbits 8).symm⟩
    simpa [Nat.div_eq_of_lt ht, Nat.mod_eq_of_lt ht, ht.ne', ht.trans (Nat.lt_succ_self 8), byteAt] using (hbits t).symm
  · rintro ⟨rfl, h1⟩
    refine BitVec.eq_of_getLsbD_eq fun t _ => ?_
    rw [hbits, codeReset_getLsbD]
    rcases Nat.lt_trichotomy t 8 with ht | rfl | ht
    · simp [Nat.div_eq_of_lt ht, ht.ne', byteAt]
    · exact h1
    · simp [ht.ne, show ¬ t < 9 by omega]

/-- Settles O55: both sides say that byte 4 is zero and bit 0 of byte 5 is set. -/
theorem containerCheckIsFirstCodeword : Obligations.ContainerCheckIsFirstCodeword := by
  intro file hlen h3
  have hdrop : ∀ a, byteAt (file.drop 4) a = byteAt file (4 + a) := fun a => by
    simp only [byteAt, List.getD_eq_getElem?_getD, List.getElem?_drop]
  have hadm : ¬ 8 * (file.drop 4).length < 0 + Width.w9.bits := by
    rw [List.length_drop, Width.bits]
    omega
  rw [decodeBytes, if_neg hadm]
  simp only [Nat.zero_div, Nat.zero_mod, Nat.zero_add, decode_eq_reset_iff, codewordAt_eq_codeReset_iff, hdrop]
  rw [containerCheck, if_neg (Nat.not_lt.mpr hlen), if_neg (not_not.mpr h3)]
  split
  next h => exact iff_of_true rfl h
  next h => exact iff_of_false nofun h

/-! ## The width schedule (R104, R195) -/

/-- How far the schedule has come when the decoder is in a running phase. -/
def schedulePhase : Phase → SchedulePhase
  | .awaitingReset => .awaitingReset
  | .postReset => .postReset
  | _ => .running

/-- The schedule's view of the decoder. -/
def scheduleOf (s : State) : Schedule := { w := s.w, n := s.n, phase := schedulePhase s.phase }

theorem scheduleOf_endStep (s : State) : scheduleOf (endStep s) = scheduleOf s := by
  rw [scheduleOf, endStep_w, endStep_n, endStep_phase, scheduleOf]

theorem eq_schedulePhase {p : SchedulePhase} {ph : Phase} (h1 : p = .awaitingReset ↔ ph = .awaitingReset)
    (h2 : p = .postReset ↔ ph = .postReset) : p = schedulePhase ph := by
  cases ph with
  | awaitingReset => exact h1.mpr rfl
  | postReset => exact h2.mpr rfl
  | idle | running | done | fault =>
    cases p with
    | awaitingReset => cases h1.mp rfl
    | postReset => cases h2.mp rfl
    | running => rfl

/-- The schedule grows where `GROW` does: its ceiling is `D`, and widening stops at 12. -/
theorem afterTail_w_of_ceiling {s : State} (hd : s.d = 2 ^ s.w.bits) :
    (afterTail s).w = if 2 ^ s.w.bits ≤ s.n + 1 then widen s.w else s.w := by
  rw [afterTail_w, hd]
  by_cases hw : s.w = .w12
  · simp [hw, widen]
  · simp [hw]

/-- The end of a data codeword moves the schedule by the codeword. -/
theorem scheduleOf_next_afterTail {cw : Code} {s : State} (hp : s.phase = .running) (hd : s.d = 2 ^ s.w.bits)
    (hc : cw.toNat ≤ 0xFF ∨ Config.firstFree ≤ cw.toNat) : (scheduleOf s).next cw = scheduleOf (afterTail s) := by
  rw [Schedule.next, if_neg (ne_codeReset hc), if_neg (ne_codeEnd hc), scheduleOf, scheduleOf,
    afterTail_w_of_ceiling hd, afterTail_n, afterTail_phase, hp]
  rfl

/-- A step that does not end the run moves the schedule by its codeword. -/
theorem StepEffect.schedule {cw : Code} {u t : State} (h : StepEffect cw u t) (hd : u.d = 2 ^ u.w.bits)
    (hr : t.phase.isRunning = true) : (scheduleOf u).next cw = scheduleOf t := by
  cases h with
  | firstNotReset | finish | literalFull | nonliteral => cases hr
  | reset hc =>
    rw [Schedule.next, if_pos hc, scheduleOf_endStep]
    rfl
  | literal hp hc hw =>
    rw [Schedule.next, if_neg (ne_codeReset (.inl hc)), if_neg (ne_codeEnd (.inl hc)), scheduleOf_endStep]
    simp [scheduleOf, hp, schedulePhase, hc]
  | data v hp hc hdata hv hn =>
    obtain ⟨b, bytes, rfl, -⟩ := hv
    rw [scheduleOf_endStep]
    exact scheduleOf_next_afterTail (s := withStack [] (withFirst b (afterOutput (b :: bytes) u))) hp hd hc
  | dataFaulted v _ _ _ hv =>
    rw [hv.phase] at hr
    cases hr

/-- Settles O22: the step has one of the effects of `StepEffect.schedule`. -/
theorem scheduleIsTheDecoders : Obligations.ScheduleIsTheDecoders := by
  intro s t cw s1 hi hr hread hstep hrt p q hp1 hp2 hq1 hq2
  rw [eq_schedulePhase hp1 hp2, eq_schedulePhase hq1 hq2]
  rcases step_running_next hr hstep with ⟨-, rfl⟩ | ⟨-, cw', hread', he⟩
  · cases hrt
  · rw [hread] at hread'
    cases hread'
    exact he.schedule (hi.run hr).ceiling hrt

end Sys2Proof.Machine
end

section
/-! The BitReader executed by itself (`40_bitreader.md`): what it answers when the window's bytes are placed (R120), and
when the read passes the end of the source (R122). -/

namespace Sys2Proof.Machine

/-- An admitted read needs no more of the source than the three bytes of its window (R121). -/
theorem brRead_windowPlaced {s : State} (ha : Admitted s)
    (hw : ∀ a, s.bitpos / 8 ≤ a → a ≤ s.bitpos / 8 + 2 → srcByte s a ≠ none) :
    ∃ cw, brRead s = .ok cw (consume cw s) := by
  have hbyte : ∀ k ≤ 2, ∃ b, srcByte s (s.bitpos / 8 + k) = some b := fun k hk =>
    Option.ne_none_iff_exists'.mp (hw _ (by omega) (by omega))
  obtain ⟨b0, h0⟩ := hbyte 0 (by decide)
  obtain ⟨b1, h1⟩ := hbyte 1 (by decide)
  obtain ⟨b2, h2⟩ := hbyte 2 (by decide)
  exact ⟨_, brRead_admitted ha h0 h1 h2⟩

/-- Settles O5: an admitted read returns a codeword, whose bits `brRead_getLsbD` gives; any other read takes the fault
before a byte is fetched. -/
theorem brReadOperation : Obligations.BrReadOperation := by
  intro s
  constructor
  · intro ha hw
    obtain ⟨cw, hr⟩ := brRead_windowPlaced ha hw
    refine ⟨cw, ?_, brRead_getLsbD hr⟩
    rw [exec, execBrRead, hr, Res.ok_outcome, consume]
  · intro hn
    rw [exec, execBrRead, brRead_exhausted (Nat.not_le.mpr hn), Res.raised_outcome, takeFault]

end Sys2Proof.Machine
end

section
/-! The Dictionary executed by itself (`41_dictionary.md`): what an add leaves at every index (R131), and what a resolve
answers inside and outside its contract (R133, R134). -/

namespace Sys2Proof.Machine

/-! ## Reading after an add -/

theorem dictRead_addEntry_self (p : Code) (b : Byte) (s : State) :
    dictRead (addEntry p b s) s.n = { pfx := p, byte := b } :=
  dictRead_listed (Store.get?_set_self s.dict s.n _)

theorem dictRead_addEntry_ne (p : Code) (b : Byte) {s : State} {i : Nat} (h : i ≠ s.n) :
    dictRead (addEntry p b s) i = dictRead s i := by
  rw [dictRead, addEntry_dict, Store.get?_set_ne _ _ h, addEntry_tableSeed, dictRead]

@[simp] theorem dictRead_withResult (r : OpResult) (s : State) (i : Nat) :
    dictRead (withResult r s) i = dictRead s i :=
  dictRead_congr rfl rfl i

/-! ## The operations by themselves -/

theorem exec_dictAdd_room (p : Code) (b : Byte) {s : State} (h : s.n < s.cfg.dictLimit) :
    exec (.dictAdd p b) s = .next (withResult (.assigned s.n) (addEntry p b s)) := by
  rw [exec, execDictAdd, dictAdd_room h, Res.outcomeWith]

theorem exec_dictAdd_full (p : Code) (b : Byte) {s : State} (h : s.cfg.dictLimit ≤ s.n) :
    exec (.dictAdd p b) s = .next (takeFault .internalLimitExceeded .dictFull s) := by
  rw [exec, execDictAdd, dictAdd_full h, Res.outcomeWith]

theorem exec_dictResolve_live {k : Code} {s : State} (hlow : Config.firstFree ≤ k.toNat) (hn : k.toNat < s.n) :
    exec (.dictResolve k) s = .next (withResult (.entry (dictRead s k.toNat)) s) := by
  rw [exec, execDictResolve, dictResolve, if_pos ⟨hlow, hn⟩, Res.outcomeWith]

theorem exec_dictResolve_not_live {k : Code} {s : State} (h : ¬ (Config.firstFree ≤ k.toNat ∧ k.toNat < s.n)) :
    exec (.dictResolve k) s = .refused (.resolveOutsideContract k) := by
  rw [exec, execDictResolve, dictResolve, if_neg h, Res.outcomeWith]

/-- A resolve of a live element can complete with no pair but the one read there. -/
theorem eq_dictRead_of_exec_dictResolve {k : Code} {s : State} {e : DictEntry} (hlow : Config.firstFree ≤ k.toNat)
    (hn : k.toNat < s.n) (h : exec (.dictResolve k) s = .next (withResult (.entry e) s)) :
    e = dictRead s k.toNat := by
  rw [exec_dictResolve_live hlow hn] at h
  injection h with hs
  have hr : OpResult.entry (dictRead s k.toNat) = .entry e := congrArg State.result hs
  injection hr with he
  exact he.symm

/-! ## The obligations -/

/-- Settles O40: the add writes at the old `N` alone, which no element live before it has as its index. -/
theorem dictAddThenResolve : Obligations.DictAddThenResolve := by
  intro p b s hlow hhigh hroom
  refine ⟨_, exec_dictAdd_room p b hroom, ?_, ?_⟩
  · have hk : (BitVec.ofNat 12 s.n).toNat = s.n := (BitVec.toNat_ofNat _ _).trans (Nat.mod_eq_of_lt (by omega))
    rw [exec_dictResolve_live (hk.symm ▸ hlow) (hk.symm ▸ Nat.lt_succ_self s.n), hk, dictRead_withResult,
      dictRead_addEntry_self, withResult]
  · intro k e hk hn hres
    have he : e = dictRead s k.toNat := eq_dictRead_of_exec_dictResolve hk hn hres
    rw [exec_dictResolve_live hk (Nat.lt_succ_of_lt hn), dictRead_withResult, dictRead_addEntry_ne p b hn.ne, he,
      withResult]

/-- Settles O37: `dictReset` writes `N` alone. -/
theorem dictResetOperation : Obligations.DictResetOperation := by
  intro s
  rw [exec, execDictReset, dictReset, Config.firstFree]

/-- Settles O38, on either side of `DICT_LIMIT`. -/
theorem dictAddOperation : Obligations.DictAddOperation := fun p b _ =>
  ⟨exec_dictAdd_room p b, exec_dictAdd_full p b⟩

/-- Settles O39: the pair is what `dictRead` reads at the index; an index that is not live is refused. -/
theorem dictResolveOperation : Obligations.DictResolveOperation := by
  intro k s
  constructor
  · intro hlow hn
    exact ⟨dictRead s k.toNat, exec_dictResolve_live hlow hn, fun _ he => dictRead_listed he⟩
  · intro hout
    exact exec_dictResolve_not_live fun ⟨hlow, hn⟩ => hout.elim (Nat.not_lt.mpr hlow) (Nat.not_le.mpr hn)

end Sys2Proof.Machine
end

section
/-! The ExpansionStack (`42_expansion_stack.md`): its operations executed by themselves (R140 to R146), the bound on the
length of a string (R152), and which causes a step can record where the invariant holds (R150, R152). -/

namespace Sys2Proof.Machine

/-! ## Push, pop, top and the test for empty (R140 to R143) -/

theorem stk_eq_nil {s : State} (h : s.sp = 0) : s.stk = [] := List.length_eq_zero_iff.mp h

theorem stkPop_cons {b : Byte} {rest : List Byte} {s : State} (h : s.stk = b :: rest) :
    stkPop s = .ok b (withStack rest s) := by
  simp [stkPop, h]

theorem stkPop_nil {s : State} (h : s.stk = []) : stkPop s = .refused .popOfEmptyStack := by
  simp [stkPop, h]

theorem stkTop_nil {s : State} (h : s.stk = []) : stkTop s = .refused .topOfEmptyStack := by
  simp [stkTop, h]

/-- Settles O41: a push on either side of `STACK_DEPTH`, a pop by whether the stack holds a byte. -/
theorem stackPushAndPop : Obligations.StackPushAndPop := by
  intro b s
  refine ⟨fun h => ?_, fun h => ?_, ?_, fun h => ?_⟩
  · rw [exec, execStkPush, stkPush_room h, Res.ok_outcome, withStack]
  · rw [exec, execStkPush, stkPush_full h, Res.raised_outcome, takeFault]
  · rw [exec, execStkPop, stkPop_cons rfl]
    rfl
  · rw [exec, execStkPop, stkPop_nil (stk_eq_nil h), Res.outcomeWith]

/-- Settles O42: the top by whether the stack holds a byte; the test for empty is one of `SP`. -/
theorem stackTopAndIsEmpty : Obligations.StackTopAndIsEmpty := by
  intro b rest s
  refine ⟨?_, fun h => ?_, fun h => ?_⟩
  · rw [exec, execStkIsEmpty, stkIsEmpty, withResult]
  · rw [exec, execStkTop, stkTop_cons h, Res.outcomeWith, withResult]
  · rw [exec, execStkTop, stkTop_nil (stk_eq_nil h), Res.outcomeWith]

/-! ## `EXPAND` (R145, R148) -/

/-- A codeword that has a string, on a stack that may hold bytes: the string lands on top of them where it fits. -/
theorem expand_onto {k : Code} {s : State} (hk : HasString s k) (hc : LiveChain s) (hs : s.sp ≤ s.cfg.stackDepth) :
    expand k s =
      if s.sp + (str s k).length ≤ s.cfg.stackDepth then .ok () (withStack (str s k ++ s.stk) s)
      else .raised (takeFault .internalLimitExceeded .stackFull
        (withStack (lastBytes (s.cfg.stackDepth - s.sp) (str s k) ++ s.stk) s)) :=
  chainWalk_live (k.toNat + 1) s.n k s (Nat.lt_succ_self _) le_rfl hk hc hs

/-- A control code, or a composite code that is not live, breaks the chain at its first element. -/
theorem expand_dead {k : Code} {s : State} (hlit : 0x100 ≤ k.toNat)
    (hdead : Config.firstFree ≤ k.toNat → s.n ≤ k.toNat) :
    expand k s = .raised (takeFault .corruptStream .chainInconsistent s) := by
  rw [expand, chainWalk]
  split
  next hcomp => rw [if_pos (hdead hcomp), raise]
  next => rw [raise]

/-- Settles O43, on either side of `STACK_DEPTH`. -/
theorem expandLeavesTheString : Obligations.ExpandLeavesTheString := by
  intro k s hc hk hs
  rw [exec, execExpand, expand_onto hk hc hs]
  refine ⟨fun hfit => ?_, fun hfull => ?_⟩
  · rw [if_pos hfit, Res.ok_outcome, withStack]
  · rw [if_neg (Nat.not_le.mpr hfull), Res.raised_outcome, takeFault, withStack]

/-- Settles O44: the two control codes are not composite, and a composite one is at or above `N`. -/
theorem expandOfDeadCodeFaults : Obligations.ExpandOfDeadCodeFaults := by
  intro k s hk
  have hdead : expand k s = .raised (takeFault .corruptStream .chainInconsistent s) := by
    rcases hk with rfl | rfl | ⟨hcomp, hn⟩
    · exact expand_dead (by decide) fun h => absurd h (by decide)
    · exact expand_dead (by decide) fun h => absurd h (by decide)
    · exact expand_dead (by omega) fun _ => hn
  rw [exec, execExpand, hdead, Res.raised_outcome, takeFault]

/-! ## `FLUSH` (R146) -/

/-- Where the stack fits, `FLUSH` leaves it empty and written. -/
theorem flush_fits {s : State} (h : s.wr + s.sp ≤ s.dstCap) :
    flush s = .ok () (withStack [] (afterOutput s.stk s)) := by
  rw [flush_spec, if_pos (.inl h)]

/-- Where it does not fit, the bytes that fit are written, and the next one has been popped. -/
theorem flush_overruns {s : State} (hw : s.wr ≤ s.dstCap) (h : s.dstCap < s.wr + s.stk.length) :
    flush s = .raised (takeFault .bufferOverrun .destFull
      (withStack (s.stk.drop (s.dstCap - s.wr + 1)) (afterOutput (s.stk.take (s.dstCap - s.wr)) s))) := by
  rw [flush_spec, if_neg]
  rintro (hfit | hnil)
  · omega
  · rw [hnil, List.length_nil] at h
    omega

/-- Settles O45, on either side of `DST_CAP`; the bytes that fit fill the destination exactly. -/
theorem flushWritesTheStack : Obligations.FlushWritesTheStack := by
  intro s hw
  refine ⟨fun hfit => ?_, fun hover => ?_⟩
  · rw [exec, execFlush, flush_fits hfit, Res.ok_outcome]
    rfl
  · have hover : s.dstCap < s.wr + s.stk.length := hover
    have hfilled : s.wr + (s.stk.take (s.dstCap - s.wr)).length = s.dstCap := by
      rw [List.length_take]
      omega
    rw [exec, execFlush, flush_overruns hw hover, Res.raised_outcome]
    simp only [takeFault, withStack, afterOutput, hfilled]

/-! ## The length of a string (R152) -/

/-- The elements of a live chain descend, so a composite code `k` has at most `k - 0x101` of them before the literal at
its end, whatever the bound on the walk. -/
theorem chainString_length_le {s : State} (hc : LiveChain s) (fuel : Nat) {k : Code} (hk : HasString s k) :
    (chainString s fuel k).length ≤ max 1 (k.toNat - 0x100) := by
  induction fuel generalizing k with
  | zero => exact Nat.zero_le _
  | succ f ih =>
    rw [chainString]
    split
    next hcomp =>
      have hn : k.toNat < s.n := (hk.resolve_left (not_literal hcomp)).2
      obtain ⟨hlt, hp⟩ := hc.entry hcomp hn
      have hle := ih (hp.imp_right fun h => ⟨h, hlt.trans hn⟩)
      rw [Config.firstFree] at hcomp
      rw [List.length_append, List.length_singleton]
      omega
    next => exact le_max_left _ _

theorem str_length_le {s : State} {k : Code} (hc : LiveChain s) (hk : HasString s k) :
    (str s k).length ≤ max 1 (k.toNat - 0x100) :=
  chainString_length_le hc _ hk

/-- No string is longer than the bound for the largest codeword, `0xFFF - 0x100 = 3839` bytes. -/
theorem str_length_le_largest {s : State} {k : Code} (hc : LiveChain s) (hk : HasString s k) :
    (str s k).length ≤ 3839 := by
  have hle := str_length_le hc hk
  have hlt := k.isLt
  omega

/-- Settles O24: the bound of `str_length_le`, where it is above 1. -/
theorem stringLengthBound : Obligations.StringLengthBound := by
  intro s k hi hr hcomp hn
  have hle := str_length_le (hi.run hr).chain (.inr ⟨hcomp, hn⟩)
  omega

/-! ## The causes a step can record (R150, R152) -/

/-- What the faults of a step from a live dictionary are limited to: no broken chain, and a full stack only for a string
that is longer than the stack. -/
def CauseAllowed (s : State) (ce : ErrCause) : Prop :=
  ce ≠ .chainInconsistent ∧ (ce = .stackFull → ∃ k, HasString s k ∧ s.cfg.stackDepth < (str s k).length)

theorem CauseAllowed.of_not_stack {s : State} {ce : ErrCause} (h : ce ∉ [ErrCause.chainInconsistent, .stackFull]) :
    CauseAllowed s ce := by
  simp only [List.mem_cons, List.not_mem_nil, or_false, not_or] at h
  obtain ⟨hchain, hstack⟩ := h
  exact ⟨hchain, fun hs => absurd hs hstack⟩

theorem emit_raised {b : Byte} {s t : State} (h : emit b s = .raised t) : t.errCause = .destFull := by
  rcases Nat.lt_or_ge s.wr s.dstCap with hw | hw
  · rw [emit_room hw] at h
    cases h
  · rw [emit_full hw] at h
    cases h
    rfl

theorem tail_raised {s t : State} (h : tail s = .raised t) : t.errCause = .dictFull := by
  rcases Nat.lt_or_ge s.n s.cfg.dictLimit with hn | hn
  · rw [tail_room hn] at h
    cases h
  · rw [tail_full hn] at h
    cases h
    rfl

/-- Expanding and flushing a codeword that has a string. -/
theorem emitString_raised {k : Code} {s t : State} (hk : HasString s k) (hc : LiveChain s) (hs : s.stk = [])
    (h : emitString k s = .raised t) : CauseAllowed s t.errCause := by
  rcases Nat.lt_or_ge s.cfg.stackDepth (str s k).length with hd | hd
  · rw [emitString_stackFull hk hc hs hd] at h
    cases h
    exact ⟨nofun, fun _ => ⟨k, hk, hd⟩⟩
  · rcases Nat.lt_or_ge s.dstCap (s.wr + (str s k).length) with hw | hw
    · rw [emitString_destFull hk hc hs hd hw] at h
      cases h
      exact .of_not_stack (by simp)
    · rw [emitString_fits hk hc hs hd hw] at h
      cases h

theorem CauseAllowed.of_tail {s u t : State} (h : tail u = .raised t) : CauseAllowed s t.errCause := by
  rw [tail_raised h]
  exact .of_not_stack (by decide)

/-- The branch `CW < N`: the codeword has a string. -/
theorem knownCode_raised {s t : State} (hk : HasString s s.cw) (hc : LiveChain s) (hs : s.stk = [])
    (h : knownCode s = .raised t) : CauseAllowed s t.errCause := by
  rcases Res.bind_eq_raised h with h | ⟨_, u, -, h⟩
  · exact emitString_raised hk hc hs h
  · exact .of_tail h

/-- The branch `CW == N`: `PW` has a string. -/
theorem kwkwkCode_raised {s t : State} (hk : HasString s s.pw) (hc : LiveChain s) (hs : s.stk = [])
    (h : kwkwkCode s = .raised t) : CauseAllowed s t.errCause := by
  rcases Res.bind_eq_raised h with h | ⟨_, u, -, h⟩
  · exact emitString_raised hk hc hs h
  · rcases Res.bind_eq_raised h with h | ⟨_, v, -, h⟩
    · rw [emit_raised h]
      exact .of_not_stack (by decide)
    · exact .of_tail h

/-- A codeword below `N` that is no control code has a string. -/
theorem hasString_of_not_control {s : State} {k : Code} (hn : k.toNat < s.n) (hc : Code.isControl k = false) :
    HasString s k := by
  rcases code_trichotomy k with rfl | rfl | hlit | hcomp
  · cases hc
  · cases hc
  · exact .inl hlit
  · exact .inr ⟨hcomp, hn⟩

/-- Whatever string a data codeword expands exists: that of `CW` below `N`, that of `PW` by the invariant. -/
theorem dataCodeword_raised {s t : State} (hi : RunInv s) (hp : s.phase = .running)
    (hcw : s.cw.toNat ≤ 0xFF ∨ Config.firstFree ≤ s.cw.toNat) (h : dataCodeword s = .raised t) :
    CauseAllowed s t.errCause := by
  rw [dataCodeword] at h
  split at h
  next =>
    cases h
    exact .of_not_stack (by simp)
  next =>
    split at h
    next hn => exact knownCode_raised (hcw.imp_right fun hcomp => ⟨hcomp, hn⟩) hi.chain hi.stackEmpty h
    next =>
      obtain ⟨hn, hc⟩ := hi.previous hp
      exact kwkwkCode_raised (hasString_of_not_control hn hc) hi.chain hi.stackEmpty h

theorem ErrCause.eq_noError {ce : ErrCause} (h : ce.kind = .noError) : ce = .noError := by
  cases ce with
  | noError => rfl
  | _ => exact absurd h (by decide)

/-- In a running phase no cause is recorded (R30 (viii)). -/
theorem Inv.errCause_eq {s : State} (hi : Inv s) (hr : s.phase.isRunning = true) : s.errCause = .noError :=
  ErrCause.eq_noError (hi.faultCause.trans (hi.errKind_eq (Phase.ne_fault_of_isRunning hr)))

theorem CauseAllowed.of_eq {s t : State} (hi : Inv s) (hr : s.phase.isRunning = true) (h : t.errCause = s.errCause) :
    CauseAllowed s t.errCause := by
  rw [h, hi.errCause_eq hr]
  exact .of_not_stack (by decide)

/-- Every effect of a step on the codeword in `CW` records an allowed cause, or none. -/
theorem StepEffect.causeAllowed {u t : State} (hi : Inv u) (hr : u.phase.isRunning = true)
    (h : StepEffect u.cw u t) : CauseAllowed u t.errCause := by
  cases h with
  | firstNotReset | literalFull | nonliteral => exact .of_not_stack (by simp)
  | finish => exact .of_eq hi hr rfl
  | reset | literal => exact .of_eq hi hr (endStep_errCause _)
  | data v _ _ _ hv _ =>
    obtain ⟨b, bytes, rfl, -⟩ := hv
    exact .of_eq hi hr (endStep_errCause _)
  | dataFaulted _ hp hc hd _ => exact dataCodeword_raised (hi.run hr) hp hc hd

/-- Strings do not depend on the codeword read. -/
theorem str_consume (cw k : Code) (s : State) : str (consume cw s) k = str s k :=
  chainString_congr (s := consume cw s) (t := s) rfl rfl _ k

theorem CauseAllowed.of_consume {cw : Code} {s : State} {ce : ErrCause} (h : CauseAllowed (consume cw s) ce) :
    CauseAllowed s ce := by
  simpa only [CauseAllowed, HasString, consume_n, consume_cfg, str_consume] using h

/-- A step from a running phase where the invariant holds records an allowed cause, or none. -/
theorem step_causeAllowed {s t : State} (hi : Inv s) (hr : s.phase.isRunning = true) (h : step s = .next t) :
    CauseAllowed s t.errCause := by
  rcases step_running_next hr h with ⟨-, rfl⟩ | ⟨ha, cw, -, he⟩
  · exact .of_not_stack (by simp)
  · exact (he.causeAllowed (hi.consume ha cw) hr).of_consume

/-- Settles O25: a string longer than the stack would be longer than the longest string. -/
theorem stackFullUnreachable : Obligations.StackFullUnreachable := by
  intro s t hi hr hdepth h hfull
  obtain ⟨-, hstack⟩ := step_causeAllowed hi hr h
  obtain ⟨k, hk, hlong⟩ := hstack hfull
  exact absurd (str_length_le_largest (hi.run hr).chain hk) (by omega)

/-- Settles O26: the chains a step walks are live. -/
theorem chainInconsistentUnreachable : Obligations.ChainInconsistentUnreachable := by
  intro s t hi hr h
  exact (step_causeAllowed hi hr h).1

end Sys2Proof.Machine
end

section
/-! The dispatch of `STEP` (`43_decoder_control.md` R160), row by row, and the codewords of the stream executed by
themselves, which are that dispatch on the latched codeword (`30_encoding.md` R97). -/

namespace Sys2Proof.Machine

/-! ## The dispatch, by phase and codeword (R160) -/

section Dispatch
variable {s : State}

/-- A reset code is the same in every running phase (R163, R165, R166). -/
theorem dispatchStep_reset (hr : s.phase.isRunning = true) (hc : s.cw = Config.codeReset) :
    dispatchStep s = .ok () (doReset s) := by
  have hlit : ¬ s.cw.toNat ≤ 0xFF := by rw [hc]; decide
  rw [dispatchStep]
  cases hp : s.phase with
  | awaitingReset => exact if_pos hc
  | postReset => exact (if_neg hlit).trans (if_pos hc)
  | running => exact if_pos hc
  | idle | done | fault => rw [hp] at hr; cases hr

theorem dispatchStep_end (hp : s.phase = .postReset ∨ s.phase = .running) (hc : s.cw = Config.codeEnd) :
    dispatchStep s = .ok () (finish s) := by
  have hlit : ¬ s.cw.toNat ≤ 0xFF := by rw [hc]; decide
  have hreset : s.cw ≠ Config.codeReset := by rw [hc]; decide
  rcases hp with hp | hp <;> simp only [dispatchStep, hp, if_neg hlit, if_neg hreset, if_pos hc]

theorem dispatchStep_firstNotReset (hp : s.phase = .awaitingReset) (hc : s.cw ≠ Config.codeReset) :
    dispatchStep s = .raised (takeFault .invalidContainer .firstNotReset s) := by
  simp only [dispatchStep, hp, if_neg hc, firstNotReset, raise]

theorem dispatchStep_firstLiteral (hp : s.phase = .postReset) (hc : s.cw.toNat ≤ 0xFF) :
    dispatchStep s = firstLiteral s := by
  simp only [dispatchStep, hp, if_pos hc]

theorem dispatchStep_nonliteral (hp : s.phase = .postReset) (hc : Config.firstFree ≤ s.cw.toNat) :
    dispatchStep s = .raised (takeFault .corruptStream .nonliteralAfterReset s) := by
  simp only [dispatchStep, hp, if_neg (not_literal hc), if_neg (ne_codeReset (.inr hc)), if_neg (ne_codeEnd (.inr hc)),
    nonliteralAfterReset, raise]

theorem dispatchStep_data (hp : s.phase = .running) (hreset : s.cw ≠ Config.codeReset)
    (hend : s.cw ≠ Config.codeEnd) : dispatchStep s = dataCodeword s := by
  simp only [dispatchStep, hp, if_neg hreset, if_neg hend]

end Dispatch

/-! ## The first literal (R167) -/

theorem firstLiteral_room {s : State} (h : s.wr < s.dstCap) :
    firstLiteral s = .ok () (withPhase .running (withPrevious s.cw (putByte (litByte s.cw) s))) := by
  rw [firstLiteral, emit_room h, Res.ok_bind, putByte_cw]

theorem firstLiteral_full {s : State} (h : s.dstCap ≤ s.wr) :
    firstLiteral s = .raised (takeFault .bufferOverrun .destFull s) := by
  rw [firstLiteral, emit_full h, Res.raised_bind]

/-! ## A codeword of the stream executed by itself (R97) -/

/-- Where the condition of the row `KWKWK` holds, `DATA` takes the same branch (R181, R184). -/
theorem kwkwkInRunning_eq : kwkwkInRunning = dataCodeword := by
  funext s
  rw [kwkwkInRunning]
  split
  next h => rw [dataCodeword, if_neg (by omega), if_neg (by omega)]
  next => rfl

/-- Where the condition of the row `INVALID` holds, `DATA` takes the same branch (R181, R186). -/
theorem invalidInRunning_eq : invalidInRunning = dataCodeword := by
  funext s
  rw [invalidInRunning]
  split
  next h => rw [dataCodeword, if_pos h]
  next => rfl

/-- An operation of the stream latches its own codeword, and acts as the static decoder's operation for it does. -/
theorem exec_staticName {i : Instr} {c : Codeword} (hc : encode i = some c) (s : State) :
    exec i s = exec i.staticName (latch c.value s) := by
  cases i with
  | reset w | endStream w | lit w b | code w cw => obtain rfl := Option.some.inj hc; rfl
  | kwkwk w cw => obtain rfl := Option.some.inj hc; rw [exec, execKwkwk, kwkwkInRunning_eq]; rfl
  | invalid w cw => obtain rfl := Option.some.inj hc; rw [exec, execInvalid, invalidInRunning_eq]; rfl
  | _ => cases hc

/-- A codeword executed by itself ends as the dispatch of `STEP` does with that codeword in `CW`. -/
theorem exec_of_dispatchStep {i : Instr} {c : Codeword} {s : State} {r : Res Unit} (hi : i.wellFormed = true)
    (hc : encode i = some c) (h : dispatchStep (latch c.value s) = r) : exec i s = r.outcome := by
  rw [exec_staticName hc, ← classify_encode hi hc, exec_classify c.width (latch_cw c.value s), h]

/-! ## The control codes and the codeword after a reset -/

/-- Settles O29, by the two rows of the dispatch in `AWAITING_RESET`. -/
theorem firstCodewordMustBeReset : Obligations.FirstCodewordMustBeReset := by
  intro i c s hp hi hc
  have hr : s.phase.isRunning = true := by rw [hp]; rfl
  refine ⟨fun hv => ?_, fun hv => exec_of_dispatchStep hi hc (dispatchStep_firstNotReset hp hv)⟩
  rw [exec_of_dispatchStep hi hc (dispatchStep_reset hr hv), hv]
  rfl

/-- Settles O30: a literal after a reset is `FIRST_LITERAL` on its codeword, which has room for its byte or has not. -/
theorem firstLiteralCodeword : Obligations.FirstLiteralCodeword := by
  refine ⟨fun w b s hp => ?_, fun s => ⟨fun hw => ?_, fun hw => ?_⟩⟩
  · have he : exec (.lit w b) s = (firstLiteral (latch (litCode b) s)).outcome :=
      exec_of_dispatchStep rfl rfl (dispatchStep_firstLiteral hp (litCode_toNat_le b))
    refine ⟨fun hw => ?_, fun hw => ?_⟩
    · rw [he, firstLiteral_room (s := latch (litCode b) s) hw, latch_cw, litByte_litCode]
      rfl
    · rw [he, firstLiteral_full (s := latch (litCode b) s) hw]
      rfl
  · rw [exec, execFirstLiteral, firstLiteral_room hw]
    rfl
  · rw [exec, execFirstLiteral, firstLiteral_full hw]
    rfl

/-- Settles O31, by the last row of the dispatch in `POST_RESET`. -/
theorem compositeAfterResetFaults : Obligations.CompositeAfterResetFaults := by
  intro i c s hp hi hc hv
  exact exec_of_dispatchStep hi hc (dispatchStep_nonliteral hp hv)

end Sys2Proof.Machine

/-! ## `RESET` and `END`, whose meanings in `Sys2Proof.Machine` have the names of their statements -/

namespace Sys2Proof

open Machine

/-- Settles O27: both clauses are `doReset`, whose `PW` is a free value. -/
theorem resetCodeword : Obligations.ResetCodeword := by
  refine ⟨fun w s hr => ⟨Config.freeCode s.draws, s.draws + 1, ?_⟩,
    fun s => ⟨Config.freeCode s.draws, s.draws + 1, rfl⟩⟩
  exact exec_of_dispatchStep (i := .reset w) rfl rfl (dispatchStep_reset hr rfl)

/-- Settles O28: the dispatch of `END` runs `PHASE <- DONE` alone. -/
theorem endCodeword : Obligations.EndCodeword := by
  intro w s hp
  exact exec_of_dispatchStep (i := .endStream w) rfl rfl (dispatchStep_end hp rfl)

end Sys2Proof
end

section
/-! The step (`43_decoder_control.md`): it is the pseudocode of `STEP` (R160), it completes (R160), it moves between the
phases as the table of R161 says, and it ends every run (R173). -/

namespace Sys2Proof.Machine

/-! ## The codeword read and decoded (R160) -/

theorem decode_eq_ok {w : Width} {cw : Code} {i : Instr} (h : decode w cw = .ok i) : i = classify w cw := by
  rw [decode] at h
  split at h <;> cases h
  rfl

/-- A codeword read from the stream has no bit at or above the width (R120). -/
theorem brRead_fits {s u : State} {cw : Code} (h : brRead s = .ok cw u) : cw.toNat < 2 ^ s.w.bits := by
  refine Nat.lt_pow_two_of_testBit _ fun t ht => ?_
  rw [BitVec.testBit_toNat, brRead_getLsbD h, decide_eq_false (Nat.not_lt.mpr ht), Bool.false_and]

/-- A read that returns a codeword has latched it and moved the cursor. -/
theorem brRead_eq_ok {s u : State} {cw : Code} (h : brRead s = .ok cw u) : u = consume cw s := by
  rcases brRead_cases s with ⟨-, e⟩ | ⟨-, b0, b1, b2, -, -, -, e⟩ | ⟨-, a, -, e⟩ <;> rw [e] at h <;> cases h
  rfl

/-- Settles O6: the read is admitted, and what it returns is what has been decoded. -/
theorem stepRunsDecodedCodeword : Obligations.StepRunsDecodedCodeword := by
  intro s b0 b1 b2 i hr ha h0 h1 h2 hd
  rw [decode_eq_ok hd, step, if_pos hr, stepCodeword, brRead_admitted ha h0 h1 h2]
  rfl

/-- Settles O7, by `step_eq_stepOnce`. -/
theorem decodedStepIsStepPseudocode : Obligations.DecodedStepIsStepPseudocode := by
  intro s hr
  rw [step_eq_stepOnce hr, exec, execStep]

/-- Settles O8: an admitted read of a placed source returns a codeword that fits its width, and the dispatch on it never
stops the model. -/
theorem stepTotalOnRunningPhases : Obligations.StepTotalOnRunningPhases := by
  intro s hr hplaced
  rw [← decodedStepIsStepPseudocode s hr]
  refine ⟨fun hn => step_exhausted hr (Nat.not_le.mpr hn), fun ha => ?_⟩
  obtain ⟨cw, hread⟩ := brRead_placed ha hplaced
  obtain ⟨_, hend, -⟩ := dispatchStep_effect (u := consume cw s) hr
  obtain ⟨t, ht, -⟩ := onNext_eq_next hend
  refine ⟨cw, classify s.w cw, t, decode_of_fits (brRead_fits hread), encode_classify s.w cw, ?_, ?_, ?_⟩
  · rw [exec, execBrRead, hread]
    rfl
  · exact (exec_classify (s := consume cw s) s.w rfl).trans ht
  · rw [step_read hr hread, ht]
    rfl

/-! ## The phases of a step (R161) -/

theorem Completed.phase {s t : State} (h : Completed s t) : t.phase = s.phase := by
  obtain ⟨b, bytes, rfl, -⟩ := h
  rfl

/-- A data codeword stays in the phase or faults. -/
theorem dataCodeword_phase (s : State) :
    ∃ t, (dataCodeword s).outcome = .next t ∧ (t.phase = s.phase ∨ t.phase = .fault) := by
  rcases dataCodeword_cases s with ⟨t, e, hv, -⟩ | ⟨t, e, hv⟩
  · exact ⟨t, by rw [e, Res.ok_outcome], .inl hv.phase⟩
  · exact ⟨t, by rw [e, Res.raised_outcome], .inr hv.phase⟩

/-- After a codeword has been read, a step ends as its dispatch does, but for `CW` and `C`. -/
theorem step_of_dispatchStep {s t v : State} {cw : Code} {r : Res Unit} (hr : s.phase.isRunning = true)
    (hread : brRead s = .ok cw (consume cw s)) (h : step s = .next t) (hd : dispatchStep (consume cw s) = r)
    (hv : r.outcome = .next v) : t = endStep v := by
  rw [step_read hr hread, hd, hv] at h
  cases h
  rfl

section PhaseTable
variable {s t : State} {cw : Code} (hr : s.phase.isRunning = true) (hread : brRead s = .ok cw (consume cw s))
  (h : step s = .next t)
include hr hread h

/-- Any codeword but 0x100 in `AWAITING_RESET` (R163). -/
theorem step_phase_awaitingReset (hp : s.phase = .awaitingReset) (hc : cw ≠ Config.codeReset) :
    t.phase = .fault ∧ t.errKind = .invalidContainer := by
  rw [step_of_dispatchStep hr hread h (dispatchStep_firstNotReset hp hc) rfl]
  exact ⟨endStep_phase _, endStep_errKind _⟩

/-- 0x100 in any running phase. -/
theorem step_phase_reset (hc : cw = Config.codeReset) : t.phase = .postReset := by
  rw [step_of_dispatchStep hr hread h (dispatchStep_reset hr hc) rfl]
  exact endStep_phase _

/-- 0x101 in `POST_RESET` or `RUNNING` (R168, R170). -/
theorem step_phase_end (hp : s.phase = .postReset ∨ s.phase = .running) (hc : cw = Config.codeEnd) :
    t.phase = .done := by
  rw [step_of_dispatchStep hr hread h (dispatchStep_end hp hc) rfl]
  exact endStep_phase _

/-- A literal in `POST_RESET` (R167). -/
theorem step_phase_firstLiteral (hp : s.phase = .postReset) (hc : cw.toNat ≤ 0xFF) :
    (s.wr < s.dstCap → t.phase = .running) ∧ (s.dstCap ≤ s.wr → t.phase = .fault) := by
  have hd := dispatchStep_firstLiteral (s := consume cw s) hp hc
  refine ⟨fun hw => ?_, fun hw => ?_⟩
  · rw [step_of_dispatchStep hr hread h (hd.trans (firstLiteral_room hw)) rfl]
    exact endStep_phase _
  · rw [step_of_dispatchStep hr hread h (hd.trans (firstLiteral_full hw)) rfl]
    exact endStep_phase _

/-- A composite code in `POST_RESET` (R169). -/
theorem step_phase_nonliteral (hp : s.phase = .postReset) (hc : Config.firstFree ≤ cw.toNat) :
    t.phase = .fault ∧ t.errKind = .corruptStream := by
  rw [step_of_dispatchStep hr hread h (dispatchStep_nonliteral hp hc) rfl]
  exact ⟨endStep_phase _, endStep_errKind _⟩

/-- A data codeword in `RUNNING` (R181). -/
theorem step_phase_data (hp : s.phase = .running) (hreset : cw ≠ Config.codeReset) (hend : cw ≠ Config.codeEnd) :
    t.phase = .running ∨ t.phase = .fault := by
  obtain ⟨v, hv, hvp⟩ := dataCodeword_phase (consume cw s)
  rw [step_of_dispatchStep hr hread h (dispatchStep_data hp hreset hend) hv, endStep_phase, ← hp]
  exact hvp

end PhaseTable

/-- The host's turn: `START` alone changes the phase (R161, R241). -/
theorem step_phase_host {s t : State} (hr : s.phase.isRunning = false) (h : step s = .next t) :
    (s.hostQueue.head? = some .start → t.phase = .awaitingReset) ∧
      (s.hostQueue.head? ≠ some .start → t.phase = s.phase) := by
  cases hq : s.hostQueue with
  | nil =>
    rw [step_host_nil hr hq] at h
    cases h
  | cons a rest =>
    rw [step_host_cons hr hq] at h
    simp only [List.head?_cons, Option.some.injEq, ne_eq]
    refine ⟨fun ha => ?_, fun ha => ?_⟩
    · rw [ha, hostAction, startCommand_accepted (s := { s with hostQueue := rest }) hr] at h
      cases h
      rfl
    · obtain ⟨ht, -⟩ := hostAction_next ha h
      rw [ht]

/-- Settles O9: a read that is not admitted, then the codeword read in each of the three running phases, then the
host. -/
theorem phaseTransitionTable : Obligations.PhaseTransitionTable := by
  refine ⟨fun s t hr h => ⟨fun hn => ?_, fun cw s1 hread => ?_⟩, fun s t hp h => ?_⟩
  · rw [step_exhausted hr (Nat.not_le.mpr hn)] at h
    cases h
    exact ⟨rfl, rfl⟩
  · obtain rfl := brRead_eq_ok hread
    have hreset := step_phase_reset hr hread h
    refine ⟨fun hp => ⟨hreset, step_phase_awaitingReset hr hread h hp⟩, fun hp => ?_, fun hp => ?_⟩
    · exact ⟨step_phase_firstLiteral hr hread h hp, hreset, step_phase_end hr hread h (.inl hp),
        step_phase_nonliteral hr hread h hp⟩
    · exact ⟨hreset, step_phase_end hr hread h (.inr hp), step_phase_data hr hread h hp⟩
  · refine step_phase_host ?_ h
    rcases hp with hp | hp | hp <;> rw [hp] <;> rfl

/-! ## Every run ends (R173) -/

theorem Width.le_bits (w : Width) : 9 ≤ w.bits := by
  cases w <;> decide

/-- How many more codewords the source can hold at most: none is shorter than 9 bits. -/
def codewordsLeft (s : State) : Nat := (8 * s.srcLen - s.bitpos) / 9

theorem StepEffect.running_or_terminal {cw : Code} {u t : State} (h : StepEffect cw u t) :
    t.phase.isRunning = true ∨ t.phase.isTerminal = true := by
  cases h with
  | firstNotReset | finish | literalFull | nonliteral => exact .inr rfl
  | reset | literal => rw [endStep_phase]; exact .inl rfl
  | data v hp _ _ hv _ => rw [endStep_phase, hv.phase, hp]; exact .inl rfl
  | dataFaulted v _ _ _ hv => rw [hv.phase]; exact .inr rfl

/-- A step from a placed source ends the run, or goes on with a placed source and a codeword less to read. -/
theorem step_progress {s : State} (hr : s.phase.isRunning = true) (hs : SourcePlaced s) :
    ∃ t, step s = .next t ∧ (t.phase.isTerminal = true ∨
      (t.phase.isRunning = true ∧ SourcePlaced t ∧ codewordsLeft t < codewordsLeft s)) := by
  rcases step_running hr with ⟨-, h⟩ | ⟨ha, cw, t, -, h, he⟩ | ⟨-, a, hb, -⟩
  · exact ⟨_, h, .inl rfl⟩
  · refine ⟨t, h, he.running_or_terminal.symm.imp_right fun hrt => ⟨hrt, ?_⟩⟩
    obtain ⟨hsrc, hlen, -⟩ := stepKeepsSourceAndConfiguration s t hr h
    have hpos : t.bitpos = s.bitpos + s.w.bits := he.bitpos
    have hw := Width.le_bits s.w
    rw [SourcePlaced, codewordsLeft, codewordsLeft, hsrc, hlen, hpos]
    rw [Admitted] at ha
    exact ⟨hs, by omega⟩
  · obtain ⟨b, hb'⟩ := srcByte_placed hs a
    rw [hb] at hb'
    cases hb'

/-- Settles O18, by induction on the codewords left: each step reads one, and the step after the last ends the run. -/
theorem everyRunEnds : Obligations.EveryRunEnds := by
  intro s hr hs
  change ∃ k t, k ≤ codewordsLeft s + 1 ∧ _
  induction hn : codewordsLeft s using Nat.strong_induction_on generalizing s with
  | _ n ih =>
    obtain ⟨t, h, hend | ⟨hrt, hst, hlt⟩⟩ := step_progress hr hs
    · exact ⟨1, t, Nat.le_add_left 1 n, run_next 0 h, hend⟩
    · obtain ⟨k, u, hk, hrun, hu⟩ := ih (codewordsLeft t) (hn ▸ hlt) t hrt hst rfl
      exact ⟨k + 1, u, by omega, (run_next k h).trans hrun, hu⟩

end Sys2Proof.Machine
end

section
/-! Data codewords in `RUNNING` (`44_decoder_data.md`): `EMIT` and `TAIL` by themselves (R180, R185), the branches of
`DATA` (R181 to R186), and the string a completed data codeword writes, evaluated after it (R187). -/

namespace Sys2Proof.Machine

/-! ## `EMIT` and `TAIL` (R180, R185) -/

/-- Settles O47, on either side of `DST_CAP`. -/
theorem emitOperation : Obligations.EmitOperation := by
  intro b s
  refine ⟨fun hw => ⟨putByte b s, ?_, rfl, ?_, fun a ha => ?_⟩, fun hw => ?_⟩
  · rw [exec, execEmit, emit_room hw, Res.ok_outcome]
  · exact Memory.read_write_self s.dst s.wr b
  · exact Memory.read_write_ne s.dst b ha
  · rw [exec, execEmit, emit_full hw, Res.raised_outcome, takeFault]

/-- Settles O48, on either side of `DICT_LIMIT`. -/
theorem tailOperation : Obligations.TailOperation := by
  intro s
  refine ⟨fun hn => ?_, fun hn => ?_⟩
  · rw [exec, execTail, tail_room hn, Res.ok_outcome, afterTail]
  · rw [exec, execTail, tail_full hn, Res.raised_outcome, takeFault]

/-! ## The dispatch of a data codeword (R181) -/

/-- In `RUNNING`, a codeword other than the two control codes is `DATA` on that codeword. -/
theorem exec_eq_data {i : Instr} {c : Codeword} {s : State} (hp : s.phase = .running) (hc : encode i = some c)
    (hi : classify c.width c.value = i.staticName)
    (hv : c.value.toNat ≤ 0xFF ∨ Config.firstFree ≤ c.value.toNat) : exec i s = exec .data (latch c.value s) := by
  rw [exec_staticName hc, ← hi, exec_classify c.width (latch_cw c.value s),
    dispatchStep_data (s := latch c.value s) hp (ne_codeReset hv) (ne_codeEnd hv), exec, execData]

theorem exec_lit_eq_data {b : Byte} {s : State} (w : Width) (hp : s.phase = .running) :
    exec (.lit w b) s = exec .data (latch (litCode b) s) :=
  exec_eq_data (i := .lit w b) hp rfl (classify_encode (i := .lit w b) rfl rfl) (.inl (litCode_toNat_le b))

section Composite
variable {cw : Code} {s : State} (w : Width) (hp : s.phase = .running) (hcomp : Config.firstFree ≤ cw.toNat)
include hp hcomp

theorem exec_code_eq_data : exec (.code w cw) s = exec .data (latch cw s) :=
  exec_eq_data (i := .code w cw) hp rfl (classify_composite w hcomp) (.inr hcomp)

theorem exec_kwkwk_eq_data : exec (.kwkwk w cw) s = exec .data (latch cw s) :=
  exec_eq_data (i := .kwkwk w cw) hp rfl (classify_composite w hcomp) (.inr hcomp)

theorem exec_invalid_eq_data : exec (.invalid w cw) s = exec .data (latch cw s) :=
  exec_eq_data (i := .invalid w cw) hp rfl (classify_composite w hcomp) (.inr hcomp)

end Composite

section Branches
variable {s : State}

theorem exec_data_beyond (h : s.n < s.cw.toNat) :
    exec .data s = .next (takeFault .corruptStream .codeBeyondNextFree s) := by
  rw [exec, execData, dataCodeword, if_pos h, invalidCode, raise, Res.raised_outcome]

theorem exec_data_known (h : s.cw.toNat < s.n) : exec .data s = (knownCode s).outcome := by
  rw [exec, execData, dataCodeword, if_neg (Nat.not_lt.mpr h.le), if_pos h]

theorem exec_data_kwkwk (h : s.cw.toNat = s.n) : exec .data s = (kwkwkCode s).outcome := by
  rw [exec, execData, dataCodeword, if_neg h.not_gt, if_neg h.not_lt]

end Branches

/-- Settles O35: the test `CW > N` comes first. -/
theorem invalidCodeFaults : Obligations.InvalidCodeFaults := by
  intro w cw s hp hcomp hn
  have hdata : exec .data (latch cw s) = .next (takeFault .corruptStream .codeBeyondNextFree (latch cw s)) :=
    exec_data_beyond hn
  exact ⟨_, rfl, (exec_invalid_eq_data w hp hcomp).trans hdata, (exec_code_eq_data w hp hcomp).trans hdata, hdata⟩

/-! ## The end of a known code and of KwKwK, from the output of the string (R182, R183, R184) -/

section Ends
variable {s u : State}

theorem knownCode_room (h : emitString s.cw s = .ok () u) (hn : u.n < u.cfg.dictLimit) :
    knownCode s = .ok () (afterTail u) := by
  rw [knownCode, h, Res.ok_bind, tail_room hn]

theorem knownCode_full (h : emitString s.cw s = .ok () u) (hn : u.cfg.dictLimit ≤ u.n) :
    knownCode s = .raised (takeFault .internalLimitExceeded .dictFull u) := by
  rw [knownCode, h, Res.ok_bind, tail_full hn]

/-- Where the extra byte fits, it is written after the string, and the add finds room. -/
theorem kwkwkCode_room (h : emitString s.pw s = .ok () u) (hw : u.wr < u.dstCap) (hn : u.n < u.cfg.dictLimit) :
    kwkwkCode s = .ok () (afterTail (putByte u.c u)) := by
  rw [kwkwkCode, h, Res.ok_bind, emit_room hw, Res.ok_bind, tail_room (s := putByte u.c u) hn]

theorem kwkwkCode_extraByteFull (h : emitString s.pw s = .ok () u) (hw : u.dstCap ≤ u.wr) :
    kwkwkCode s = .raised (takeFault .bufferOverrun .destFull u) := by
  rw [kwkwkCode, h, Res.ok_bind, emit_full hw, Res.raised_bind]

end Ends

/-! ## Literals (R182) -/

theorem withStack_nil {s : State} (hs : s.stk = []) : withStack [] s = s := by rw [← hs, withStack_self]

section Literal
variable {k : Code} {s : State} (hk : k.toNat ≤ 0xFF)
include hk

/-- The walk from a literal ends at it, whatever the dictionary holds. -/
theorem expand_literal (hd : s.stk.length < s.cfg.stackDepth) :
    expand k s = .ok () (withStack (litByte k :: s.stk) s) := by
  have hcomp : ¬ Config.firstFree ≤ k.toNat := fun h => not_literal h hk
  rw [expand, chainWalk, if_neg hcomp, if_neg (Nat.not_le.mpr (Nat.lt_succ_of_le hk)), stkPush_room hd]

/-- Its byte is all that is flushed. -/
theorem emitString_literal (hs : s.stk = []) (hd : 1 ≤ s.cfg.stackDepth) :
    emitString k s = (emit (litByte k) (withFirst (litByte k) s)).bind fun _ u => flushBytes [] u := by
  have hroom : s.stk.length < s.cfg.stackDepth := by rw [hs]; exact hd
  rw [emitString, expand_literal hk hroom, hs, Res.ok_bind, stkTop_cons (withStack_stk _ s), Res.ok_bind, flush,
    withFirst_stk, withStack_stk, flushBytes, withFirst_withStack, withStack_withStack, ← withFirst_withStack,
    withStack_nil hs]

theorem emitString_literal_fits (hs : s.stk = []) (hd : 1 ≤ s.cfg.stackDepth) (hw : s.wr < s.dstCap) :
    emitString k s = .ok () (withFirst (litByte k) (putByte (litByte k) s)) := by
  rw [emitString_literal hk hs hd, emit_room (s := withFirst (litByte k) s) hw, Res.ok_bind, flushBytes,
    withStack_nil (s := putByte (litByte k) (withFirst (litByte k) s)) hs]
  rfl

theorem emitString_literal_destFull (hs : s.stk = []) (hd : 1 ≤ s.cfg.stackDepth) (hw : s.dstCap ≤ s.wr) :
    emitString k s = .raised (takeFault .bufferOverrun .destFull (withFirst (litByte k) s)) := by
  rw [emitString_literal hk hs hd, emit_full (s := withFirst (litByte k) s) hw, Res.raised_bind]

end Literal

/-- Settles O32: a literal is below `N`, so `DATA` takes the branch of a known code. -/
theorem literalInRunning : Obligations.LiteralInRunning := by
  intro w b s hp hn hs hd
  have hlit : (latch (litCode b) s).cw.toNat ≤ 0xFF := litCode_toNat_le b
  have hdata : exec .data (latch (litCode b) s) = (knownCode (latch (litCode b) s)).outcome :=
    exec_data_known (lt_of_le_of_lt hlit (lt_of_lt_of_le (by decide) hn))
  have hbyte : litByte (latch (litCode b) s).cw = b := litByte_litCode b
  rw [exec_lit_eq_data w hp, hdata]
  refine ⟨fun hw hroom => ?_, fun hw => ?_, fun hw hfull => ?_⟩
  · have hnext := congrArg Res.outcome (knownCode_room (emitString_literal_fits hlit hs hd hw) hroom)
    rw [hbyte] at hnext
    exact ⟨_, rfl, hnext, hdata.trans hnext⟩
  · rw [knownCode, emitString_literal_destFull (s := latch (litCode b) s) hlit hs hd hw, hbyte]
    rfl
  · rw [knownCode_full (emitString_literal_fits hlit hs hd hw) hfull, hbyte]
    rfl

/-! ## Codewords that have a string (R183, R184) -/

/-- Strings do not depend on the codeword latched. -/
theorem str_latch (cw k : Code) (s : State) : str (latch cw s) k = str s k :=
  chainString_congr (s := latch cw s) (t := s) rfl rfl _ k

theorem firstByte_latch (cw k : Code) (s : State) : firstByte (latch cw s) k = firstByte s k := by
  rw [firstByte, str_latch, firstByte]

/-- The bytes of a string that fit, where it does not fit, fill the destination exactly. -/
theorem wr_add_take_length {s : State} {l : List Byte} (hw : s.wr ≤ s.dstCap) (hover : s.dstCap < s.wr + l.length) :
    s.wr + (l.take (s.dstCap - s.wr)).length = s.dstCap := by
  rw [List.length_take]
  omega

/-! The output of the string of `k` by a codeword `cw`, and the end of the codeword where it faults. -/

section StringOutput
variable {cw k : Code} {s : State} (hk : HasString s k) (hc : LiveChain s) (hs : s.stk = [])
include hk hc hs

theorem emitString_latch_fits (hd : (str s k).length ≤ s.cfg.stackDepth)
    (hw : s.wr + (str s k).length ≤ s.dstCap) :
    emitString k (latch cw s) = .ok () (withFirst (firstByte s k) (afterOutput (str s k) (latch cw s))) := by
  rw [← str_latch cw] at hd hw
  rw [emitString_fits (s := latch cw s) hk hc hs hd hw, str_latch, firstByte_latch]

theorem emitString_stackFull_outcome (hd : s.cfg.stackDepth < (str s k).length) (f : Unit → State → Res Unit) :
    ((emitString k (latch cw s)).bind f).outcome =
      .next { s with cw := cw, stk := lastBytes s.cfg.stackDepth (str s k),
                     errKind := .internalLimitExceeded, errCause := .stackFull, phase := .fault } := by
  rw [← str_latch cw] at hd
  rw [emitString_stackFull (s := latch cw s) hk hc hs hd, str_latch]
  rfl

theorem emitString_destFull_outcome (hd : (str s k).length ≤ s.cfg.stackDepth) (hw : s.wr ≤ s.dstCap)
    (hover : s.dstCap < s.wr + (str s k).length) (f : Unit → State → Res Unit) :
    ((emitString k (latch cw s)).bind f).outcome =
      .next { s with cw := cw, c := firstByte s k, stk := (str s k).drop (s.dstCap - s.wr + 1),
                     dst := writeString s.dst s.wr ((str s k).take (s.dstCap - s.wr)), wr := s.dstCap,
                     errKind := .bufferOverrun, errCause := .destFull, phase := .fault } := by
  have hfilled := wr_add_take_length hw hover
  rw [← str_latch cw] at hd hover
  rw [emitString_destFull (s := latch cw s) hk hc hs hd hover, str_latch, firstByte_latch, Res.raised_bind,
    Res.raised_outcome]
  simp only [takeFault, withStack, withFirst, afterOutput, latch, hfilled]

end StringOutput

/-- Settles O33: a code below `N` has a string, and the branch of a known code outputs it. -/
theorem knownCodeInRunning : Obligations.KnownCodeInRunning := by
  intro w cw s hp hc hs hcomp hn hw
  have hk : HasString s cw := .inr ⟨hcomp, hn⟩
  have hdata : exec .data (latch cw s) = (knownCode (latch cw s)).outcome := exec_data_known hn
  rw [exec_code_eq_data w hp hcomp, hdata]
  refine ⟨fun hd hfit hroom => ?_, fun hd => emitString_stackFull_outcome hk hc hs hd _,
    fun hd hover => emitString_destFull_outcome hk hc hs hd hw hover _, fun hd hfit hfull => ?_⟩
  · have hnext := congrArg Res.outcome (knownCode_room (emitString_latch_fits (cw := cw) hk hc hs hd hfit) hroom)
    exact ⟨_, rfl, hnext, hdata.trans hnext⟩
  · exact congrArg Res.outcome (knownCode_full (emitString_latch_fits (cw := cw) hk hc hs hd hfit) hfull)

/-! ## The string a data codeword writes, evaluated after it (R187) -/

/-- An add at `N` leaves every other element as it was. -/
theorem dictRead_afterTail_ne {s : State} {i : Nat} (h : i ≠ s.n) : dictRead (afterTail s) i = dictRead s i :=
  (dictRead_congr (s := afterTail s) (t := addEntry s.pw s.c s) rfl rfl i).trans (dictRead_addEntry_ne _ _ h)

theorem dictRead_afterTail_self (s : State) : dictRead (afterTail s) s.n = { pfx := s.pw, byte := s.c } :=
  dictRead_listed (Store.get?_set_self s.dict s.n _)

/-- A chain live before an add does not meet the new element, and neither bound on its walk is reached. -/
theorem chainString_afterTail {s : State} {k : Code} {f f' : Nat} (hc : LiveChain s) (hk : HasString s k)
    (hf : k.toNat < f) (hf' : k.toNat < f') : chainString (afterTail s) f k = chainString s f' k := by
  induction f generalizing f' k with
  | zero => omega
  | succ f ih =>
    obtain ⟨f', rfl⟩ : ∃ m, f' = m + 1 := ⟨f' - 1, by omega⟩
    rw [chainString, chainString]
    split
    next hcomp =>
      have hn : k.toNat < s.n := (hk.resolve_left (not_literal hcomp)).2
      obtain ⟨hlt, hp⟩ := hc.entry hcomp hn
      have hpfx : HasString s (dictRead s k.toNat).pfx := hp.imp_right fun h => ⟨h, hlt.trans hn⟩
      rw [dictRead_afterTail_ne hn.ne, ih (f' := f') hpfx (by omega) (by omega)]
    next => rfl

theorem str_afterTail_of_hasString {s : State} {k : Code} (hc : LiveChain s) (hk : HasString s k) :
    str (afterTail s) k = str s k :=
  chainString_afterTail hc hk (Nat.lt_succ_self _) (Nat.lt_succ_self _)

/-- The string of the new element is that of the old `PW`, which is below it, followed by `C`. -/
theorem str_afterTail_new {s : State} {k : Code} (hc : LiveChain s) (hpw : HasString s s.pw) (hlt : s.pw.toNat < s.n)
    (hlow : Config.firstFree ≤ s.n) (hk : k.toNat = s.n) : str (afterTail s) k = str s s.pw ++ [s.c] := by
  rw [str, chainString, hk, if_pos hlow, dictRead_afterTail_self,
    chainString_afterTail hc hpw hlt (Nat.lt_succ_self _), str]

/-- Strings do not depend on an output. -/
theorem str_output (b : Byte) (l : List Byte) (k : Code) (s : State) :
    str (withFirst b (afterOutput l s)) k = str s k :=
  chainString_congr (s := withFirst b (afterOutput l s)) (t := s) rfl rfl _ k

/-! The same where the add follows an output, which changes neither the dictionary nor `PW`. -/

section AddAfterOutput
variable {s : State} {k : Code} (hc : LiveChain s) (b : Byte) (l : List Byte)
include hc

theorem str_afterTail_output (hk : HasString s k) : str (afterTail (withFirst b (afterOutput l s))) k = str s k :=
  (str_afterTail_of_hasString (s := withFirst b (afterOutput l s)) hc hk).trans (str_output b l k s)

theorem str_afterTail_output_new (hpw : HasString s s.pw) (hlt : s.pw.toNat < s.n) (hlow : Config.firstFree ≤ s.n)
    (hk : k.toNat = s.n) : str (afterTail (withFirst b (afterOutput l s))) k = str s s.pw ++ [b] :=
  (str_afterTail_new (s := withFirst b (afterOutput l s)) hc hpw hlt hlow hk).trans
    (congrArg (· ++ [b]) (str_output b l s.pw s))

end AddAfterOutput

/-! ### What a data codeword that has completed wrote -/

/-- The extra byte of KwKwK, after a string whose first byte it is. -/
theorem putByte_output (b : Byte) (l : List Byte) (s : State) :
    putByte b (withFirst b (afterOutput l s)) = withFirst b (afterOutput (l ++ [b]) s) :=
  congrArg (withFirst b) (putByte_afterOutput b l s)

section Completed
variable {s t : State}

theorem tail_eq_ok (h : tail s = .ok () t) : t = afterTail s := by
  rcases Nat.lt_or_ge s.n s.cfg.dictLimit with hn | hn
  · rw [tail_room hn] at h
    cases h
    rfl
  · rw [tail_full hn] at h
    cases h

theorem emit_eq_ok {b : Byte} (h : emit b s = .ok () t) : t = putByte b s := by
  rcases Nat.lt_or_ge s.wr s.dstCap with hw | hw
  · rw [emit_room hw] at h
    cases h
    rfl
  · rw [emit_full hw] at h
    cases h

theorem emitString_eq_ok {k : Code} (hk : HasString s k) (hc : LiveChain s) (hs : s.stk = [])
    (h : emitString k s = .ok () t) : t = withFirst (firstByte s k) (afterOutput (str s k) s) := by
  rcases Nat.lt_or_ge s.cfg.stackDepth (str s k).length with hd | hd
  · rw [emitString_stackFull hk hc hs hd] at h
    cases h
  · rcases Nat.lt_or_ge s.dstCap (s.wr + (str s k).length) with hw | hw
    · rw [emitString_destFull hk hc hs hd hw] at h
      cases h
    · rw [emitString_fits hk hc hs hd hw] at h
      cases h
      rfl

/-- A known code has written its string, which the add leaves as it was. -/
theorem knownCode_wrote (hk : HasString s s.cw) (hc : LiveChain s) (hs : s.stk = []) (h : knownCode s = .ok () t) :
    t = afterTail (withFirst (firstByte t s.cw) (afterOutput (str t s.cw) s)) := by
  obtain ⟨_, u, hout, htail⟩ := Res.bind_eq_ok h
  have ht : t = afterTail (withFirst (firstByte s s.cw) (afterOutput (str s s.cw) s)) := by
    rw [tail_eq_ok htail, emitString_eq_ok hk hc hs hout]
  have hstr : str t s.cw = str s s.cw := by
    rw [ht, str_afterTail_output hc _ _ hk]
  rw [firstByte, hstr]
  exact ht

/-- KwKwK has written the string of the element it has added. -/
theorem kwkwkCode_wrote (hcw : s.cw.toNat = s.n) (hlow : Config.firstFree ≤ s.n) (hk : HasString s s.pw)
    (hlt : s.pw.toNat < s.n) (hc : LiveChain s) (hs : s.stk = []) (h : kwkwkCode s = .ok () t) :
    t = afterTail (withFirst (firstByte t s.cw) (afterOutput (str t s.cw) s)) := by
  obtain ⟨_, u, hout, hrest⟩ := Res.bind_eq_ok h
  obtain ⟨_, v, hextra, htail⟩ := Res.bind_eq_ok hrest
  have ht : t = afterTail (withFirst (firstByte s s.pw) (afterOutput (str s s.pw ++ [firstByte s s.pw]) s)) := by
    rw [tail_eq_ok htail, emit_eq_ok hextra, emitString_eq_ok hk hc hs hout, withFirst_c, putByte_output]
  have hstr : str t s.cw = str s s.pw ++ [firstByte s s.pw] := by
    rw [ht, str_afterTail_output_new hc _ _ hk hlt hlow hcw]
  have hfirst : firstByte t s.cw = firstByte s s.pw := by
    rw [firstByte, hstr, str_eq_cons, List.cons_append, List.headD_cons]
  rw [hfirst, hstr]
  exact ht

/-- Whichever branch it takes, a data codeword that completes leaves what writing its string, as evaluated in the end,
and adding the element `(PW, its first byte)` leave. -/
theorem dataCodeword_wrote (hi : RunInv s) (hp : s.phase = .running)
    (hcw : s.cw.toNat ≤ 0xFF ∨ Config.firstFree ≤ s.cw.toNat) (h : dataCodeword s = .ok () t) :
    t = afterTail (withFirst (firstByte t s.cw) (afterOutput (str t s.cw) s)) := by
  obtain ⟨hlt, hctl⟩ := hi.previous hp
  rw [dataCodeword] at h
  split at h
  next => cases h
  next hle =>
    split at h
    next hn => exact knownCode_wrote (hcw.imp_right fun hcomp => ⟨hcomp, hn⟩) hi.chain hi.stackEmpty h
    next hge =>
      exact kwkwkCode_wrote (by omega) hi.nextFreeLow (hasString_of_not_control hlt hctl) hlt hi.chain hi.stackEmpty h

/-- A data codeword that ends outside `FAULT` has completed. -/
theorem dataCodeword_eq_ok (h : exec .data s = .next t) (ht : t.phase ≠ .fault) : dataCodeword s = .ok () t := by
  rw [exec, execData] at h
  rcases dataCodeword_cases s with ⟨u, hu, -⟩ | ⟨u, hu, hf⟩
  · rw [hu] at h
    cases h
    exact hu
  · rw [hu] at h
    cases h
    exact absurd hf.phase ht

end Completed

/-- A codeword that is none of the two control codes. -/
theorem literal_or_composite {cw : Code} (hreset : cw ≠ Config.codeReset) (hend : cw ≠ Config.codeEnd) :
    cw.toNat ≤ 0xFF ∨ Config.firstFree ≤ cw.toNat :=
  ((code_trichotomy cw).resolve_left hreset).resolve_left hend

/-- Settles O36: what `dataCodeword_wrote` says, field by field, and the string of the element it has added. -/
theorem dataCodewordWritesItsString : Obligations.DataCodewordWritesItsString := by
  intro i c s t hinv hp hi hc hreset hend h ht
  have hrun : RunInv s := hinv.run (by rw [hp]; rfl)
  have hcw := literal_or_composite hreset hend
  rw [exec_eq_data hp hc (classify_encode hi hc) hcw] at h
  have hw := dataCodeword_wrote (s := latch c.value s) { hrun with } hp hcw (dataCodeword_eq_ok h (by rw [ht]; nofun))
  refine ⟨congrArg State.wr hw, fun j hj => ?_, ?_, fun hn => ?_⟩
  · have hdst : t.dst = writeString s.dst s.wr (str t c.value) := congrArg State.dst hw
    rw [hdst, writeString_read_inside _ _ _ hj, List.getElem?_eq_getElem hj]
  · have hdict : t.dict = Store.set s.dict s.n { pfx := s.pw, byte := firstByte t c.value } := congrArg State.dict hw
    rw [hdict, Store.get?_set_self]
  · obtain ⟨hlt, hctl⟩ := hrun.previous hp
    have hk : (BitVec.ofNat 12 s.n).toNat = s.n := (BitVec.toNat_ofNat _ _).trans (Nat.mod_eq_of_lt (by omega))
    have hnew := str_afterTail_output_new (s := latch c.value s) hrun.chain (firstByte t c.value) (str t c.value)
      (hasString_of_not_control hlt hctl) hlt hrun.nextFreeLow hk
    rw [str_latch] at hnew
    exact (congrArg (str · _) hw).trans hnew

end Sys2Proof.Machine

/-! ## KwKwK, whose meaning in `Sys2Proof.Machine` has the name of its statement -/

namespace Sys2Proof

open Machine

/-- Settles O34: `CW` is `N`, so the branch outputs the string of `PW`, and the table has room since a codeword is below
every valid `DICT_LIMIT`. -/
theorem kwkwkInRunning : Obligations.KwkwkInRunning := by
  intro w cw s hp hc hs hcomp hn hk hw hv
  have hroom : s.n < s.cfg.dictLimit := hn ▸ Nat.lt_of_lt_of_le cw.isLt hv.1
  have hdata : exec .data (latch cw s) = (kwkwkCode (latch cw s)).outcome := exec_data_kwkwk hn
  rw [exec_kwkwk_eq_data w hp hcomp, exec_code_eq_data w hp hcomp, hdata]
  refine ⟨fun hd hfit => ?_, fun hd => emitString_stackFull_outcome hk hc hs hd _,
    fun hd hover => emitString_destFull_outcome hk hc hs hd hw hover _, fun hd hfull => ?_⟩
  · have hout := emitString_latch_fits (cw := cw) hk hc hs hd (Nat.le_of_succ_le hfit)
    have hnext := congrArg Res.outcome (kwkwkCode_room (s := latch cw s) hout hfit hroom)
    rw [writeString_append, writeString_cons, writeString_nil]
    simp only [Res.ok_outcome, afterTail, putByte, withFirst, afterOutput, latch] at hnext
    exact ⟨_, rfl, hnext, hnext, hdata.trans hnext⟩
  · have hout := emitString_latch_fits (cw := cw) hk hc hs hd hfull.ge
    rw [kwkwkCode_extraByteFull (s := latch cw s) hout hfull.le, Res.raised_outcome]
    simp only [takeFault, withFirst, afterOutput, latch, hfull.symm]

end Sys2Proof
end

section
/-! The grow engine (`45_width_grow.md`): `GROW` by itself (R195), the arithmetic facts of the schedule (R198), and what
can lower the width (R200). -/

namespace Sys2Proof.Machine

/-! ## `GROW` (R195, R199) -/

theorem Width.bits_eq_twelve_iff (w : Width) : w.bits = 12 ↔ w = .w12 := by
  cases w <;> decide

/-- A width that is widened on a condition, and otherwise stays, is never lower. -/
theorem Width.bits_le_ite_widen (w : Width) (c : Prop) [Decidable c] : w.bits ≤ (if c then widen w else w).bits := by
  split
  · cases w <;> decide
  · exact le_rfl

theorem growOnce_grows {s : State} (hn : s.d ≤ s.n) (hw : s.w ≠ .w12) :
    growOnce s = { s with w := widen s.w, d := 2 * s.d } :=
  if_pos ⟨hn, hw⟩

theorem growOnce_unchanged {s : State} (h : s.n < s.d ∨ s.w = .w12) : growOnce s = s :=
  if_neg fun ⟨hn, hw⟩ => h.elim (Nat.not_lt.mpr hn) hw

theorem bits_le_growOnce (s : State) : s.w.bits ≤ (growOnce s).w.bits := by
  rw [growOnce_w]
  exact Width.bits_le_ite_widen s.w _

/-- Settles O49: the width is below 12 exactly when it is not the last one. -/
theorem growOperation : Obligations.GrowOperation := by
  intro s
  refine ⟨fun hn hw => ?_, fun h => ?_⟩
  · have hne : s.w ≠ .w12 := fun h => hw.ne ((Width.bits_eq_twelve_iff s.w).mpr h)
    exact ⟨widen s.w, widen_bits hne, congrArg _ (growOnce_grows hn hne)⟩
  · rw [Width.bits_eq_twelve_iff] at h
    exact congrArg _ (growOnce_unchanged h)

/-! ## The arithmetic facts of the schedule (R198) -/

/-- The ceiling never exceeds the code space of the largest width. -/
theorem RunInv.ceiling_le {s : State} (h : RunInv s) : s.d ≤ 0x1000 :=
  h.ceiling.trans_le (Nat.pow_le_pow_right (by decide) (Width.bits_le s.w))

/-- Settles O21: below width 12 the next free index is below the ceiling, which is at most 0x1000; at width 12 the
ceiling is 0x1000. -/
theorem nextFreeFitsTheWidth : Obligations.NextFreeFitsTheWidth := by
  intro s hi hr
  have hrun := hi.run hr
  have hle := hrun.ceiling_le
  refine ⟨hrun.ceiling, hle, fun hn => ?_, fun hn => ⟨?_, fun cw => cw.isLt.trans_le hn⟩⟩
  · by_cases hw : s.w = .w12
    · have hd : s.d = 0x1000 := by rw [hrun.ceiling, hw]; rfl
      omega
    · exact hrun.belowCeiling hw
  · by_contra hw
    have hlt := hrun.belowCeiling hw
    omega

/-! ## What lowers the width (R200) -/

theorem bits_le_afterTail (s : State) : s.w.bits ≤ (afterTail s).w.bits := by
  rw [afterTail_w]
  exact Width.bits_le_ite_widen s.w _

theorem Completed.bits_le {s t : State} (h : Completed s t) : s.w.bits ≤ t.w.bits := by
  obtain ⟨b, bytes, rfl, -⟩ := h
  exact bits_le_afterTail (withStack [] (withFirst b (afterOutput (b :: bytes) s)))

theorem Faulted.width {s t : State} (h : Faulted s t) : t.w = s.w := by
  obtain ⟨kd, ce, bytes, l, b, rfl, -⟩ := h
  rfl

/-- Of the effects of a step on its codeword, a reset code's alone can lower the width. -/
theorem StepEffect.reset_or_bits_le {cw : Code} {u t : State} (h : StepEffect cw u t) :
    (cw = Config.codeReset ∧ t.w = .w9 ∧ t.d = Config.dInit) ∨ u.w.bits ≤ t.w.bits := by
  cases h with
  | reset hc => exact .inl ⟨hc, endStep_w (doReset u), endStep_d (doReset u)⟩
  | firstNotReset | finish | literalFull | nonliteral => exact .inr le_rfl
  | literal => exact .inr (by rw [endStep_w]; exact le_rfl)
  | data v _ _ _ hv _ => exact .inr (by rw [endStep_w]; exact hv.bits_le)
  | dataFaulted _ _ _ _ hv => exact .inr (congrArg Width.bits hv.width).ge

/-- A step of a running phase that lowers the width read a reset code. -/
theorem step_running_lowers_width {s t : State} (hr : s.phase.isRunning = true) (h : step s = .next t)
    (hlt : t.w.bits < s.w.bits) :
    t.w = .w9 ∧ t.d = Config.dInit ∧ ∃ s1, brRead s = .ok Config.codeReset s1 := by
  rcases step_running_next hr h with ⟨-, rfl⟩ | ⟨-, cw, hread, he⟩
  · exact absurd hlt (lt_irrefl _)
  · rcases he.reset_or_bits_le with ⟨rfl, hw, hd⟩ | hle
    · exact ⟨hw, hd, _, hread⟩
    · exact absurd hlt (Nat.not_lt.mpr hle)

/-- A turn of the host that lowers the width executed `START`. -/
theorem step_host_lowers_width {s t : State} (hr : s.phase.isRunning = false) (h : step s = .next t)
    (hlt : t.w.bits < s.w.bits) :
    t.w = .w9 ∧ t.d = Config.dInit ∧ s.hostQueue.head? = some .start := by
  cases hq : s.hostQueue with
  | nil =>
    rw [step_host_nil hr hq] at h
    cases h
  | cons a rest =>
    rw [step_host_cons hr hq] at h
    by_cases ha : a = .start
    · rw [ha, hostAction, startCommand_accepted (s := { s with hostQueue := rest }) hr] at h
      cases h
      exact ⟨rfl, rfl, congrArg some ha⟩
    · obtain ⟨ht, -⟩ := hostAction_next ha h
      rw [ht] at hlt
      exact absurd hlt (lt_irrefl _)

/-- Settles O23: a running phase lowers the width by a reset code, the host by `START`; `GROW` keeps or widens it. -/
theorem onlyResetLowersTheWidth : Obligations.OnlyResetLowersTheWidth := by
  refine ⟨fun s t h hlt => ?_, fun s => ⟨growOnce s, rfl, bits_le_growOnce s⟩⟩
  cases hr : s.phase.isRunning with
  | true =>
    obtain ⟨hw, hd, hread⟩ := step_running_lowers_width hr h hlt
    exact ⟨hw, hd, .inl ⟨rfl, hread⟩⟩
  | false =>
    obtain ⟨hw, hd, hstart⟩ := step_host_lowers_width hr h hlt
    exact ⟨hw, hd, .inr ⟨rfl, hstart⟩⟩

end Sys2Proof.Machine
end

section
/-! The fault record: the numeric codes of the kinds and causes (`60_exceptions.md` R215, R219), and what a step in a
running phase leaves in `ERR_KIND` and `ERR_CAUSE` (R221, R231). -/

namespace Sys2Proof.Machine

/-! ## The numeric codes (R215, R219) -/

/-- The kind of a cause is the high nibble of its code. -/
theorem ErrCause.kind_num (c : ErrCause) : c.kind.num = c.num / 16 := by
  cases c <;> rfl

/-- Settles O58: the two tables by evaluation, the kinds of the causes by `ErrCause.kind_num`. -/
theorem faultCodes : Obligations.FaultCodes :=
  ⟨rfl, rfl, ErrCause.kind_num⟩

/-! ## The record after a step (R221, R231) -/

section Record
variable {s t u : State}

/-- `t` is a state of phase `FAULT` whose record names a cause of the core, with its kind. -/
def FaultRecorded (t : State) : Prop :=
  t.phase = .fault ∧ t.errCause.kind = t.errKind ∧ t.errCause ∉ [ErrCause.noError, .shortWrite]

/-- `t` is outside `FAULT` and its record is that of `s`. -/
def RecordKept (s t : State) : Prop :=
  t.phase ≠ .fault ∧ t.errKind = s.errKind ∧ t.errCause = s.errCause

/-- Fault entry records the kind and cause it is given (R221). -/
theorem takeFault_recorded {kd : ErrKind} {ce : ErrCause} (hk : ce.kind = kd)
    (hn : ce ∉ [ErrCause.noError, .shortWrite]) : FaultRecorded (takeFault kd ce s) :=
  ⟨rfl, hk, hn⟩

theorem Faulted.recorded (h : Faulted s t) : FaultRecorded t := by
  obtain ⟨kd, ce, bytes, l, b, rfl, hk, hn, -⟩ := h
  exact takeFault_recorded hk hn

theorem Completed.recordKept (h : Completed s t) (hp : s.phase ≠ .fault) : RecordKept s t := by
  obtain ⟨b, bytes, rfl, -⟩ := h
  exact ⟨hp, rfl, rfl⟩

theorem RecordKept.endStep (h : RecordKept s t) : RecordKept s (endStep t) := by
  simpa only [RecordKept, endStep_phase, endStep_errKind, endStep_errCause] using h

/-- Every effect of a step on its codeword enters `FAULT` with a record, or leaves the record as it was. -/
theorem StepEffect.recorded_or_kept {cw : Code} (h : StepEffect cw u t) : FaultRecorded t ∨ RecordKept u t := by
  cases h with
  | firstNotReset | literalFull | nonliteral => exact .inl (takeFault_recorded rfl (by decide))
  | dataFaulted _ _ _ _ hv => exact .inl hv.recorded
  | finish => exact .inr ⟨nofun, rfl, rfl⟩
  | reset | literal => exact .inr (RecordKept.endStep ⟨nofun, rfl, rfl⟩)
  | data v hp _ _ hv _ => exact .inr (hv.recordKept (by rw [hp]; decide)).endStep

/-- The same for a whole step, whose read of a codeword can fault as well. -/
theorem step_recorded_or_kept (hr : s.phase.isRunning = true) (h : step s = .next t) :
    FaultRecorded t ∨ RecordKept s t := by
  rcases step_running_next hr h with ⟨-, rfl⟩ | ⟨-, cw, -, he⟩
  · exact .inl (takeFault_recorded rfl (by decide))
  · exact he.recorded_or_kept

end Record

/-- Settles O17: a step records its fault or keeps the record, and the phase it ends in tells which. -/
theorem faultRecordNamesTheCause : Obligations.FaultRecordNamesTheCause := by
  intro s t hr h
  rcases step_recorded_or_kept hr h with ⟨hphase, hkind, hcause⟩ | ⟨hphase, hkind, hcause⟩
  · simp only [List.mem_cons, List.not_mem_nil, or_false, not_or] at hcause
    exact ⟨fun _ => ⟨hkind, hcause⟩, fun hne => absurd hphase hne⟩
  · exact ⟨fun heq => absurd heq hphase, fun _ => ⟨hkind, hcause⟩⟩

end Sys2Proof.Machine
end

section
/-! The host's side (`70_reset_and_hazards.md`): power-on (R240), `START` (R241, R255), the checks on a container file
(R245), and the host's actions for a file that passes them (R244, R246, R247; `20_memory.md` R70). -/

namespace Sys2Proof.Machine

/-! ## Power-on and `START` (R240, R241, R255) -/

/-- Settles O50: in `IDLE` no step of the block is enabled, and the host's queue is empty. -/
theorem powerOnState : Obligations.PowerOnState :=
  ⟨rfl, rfl, rfl, step_host_nil rfl rfl⟩

/-- Settles O51: `START` is accepted in the three phases, and its effect is `startInvocation`. -/
theorem startBeginsInvocation : Obligations.StartBeginsInvocation := by
  intro s hp
  have hr : s.phase.isRunning = false := by
    rcases hp with h | h | h <;> rw [h] <;> rfl
  exact ⟨_, _, _, _, _, exec_start hr⟩

theorem startCommand_refused {s : State} (hr : s.phase.isRunning = true) :
    startCommand s = .refused .startWhileRunning := by
  rw [startCommand, if_pos hr]

/-- Settles O53: the command is refused, and executing it hands the refusal on. -/
theorem startDuringRunRefused : Obligations.StartDuringRunRefused := by
  intro s hr
  rw [exec, execStart, startCommand_refused hr, Res.outcome]

/-! ## The checks on a container file (R245) -/

/-- Every rejection is `InvalidContainer` (R219). -/
theorem ContainerError.kind_eq (e : ContainerError) : e.kind = .invalidContainer := by
  cases e <;> rfl

/-- A file passes when it has 6 bytes, a length of 24 bits, and the reset code as its first codeword. -/
theorem containerCheck_eq_none_iff {file : List Byte} :
    containerCheck file = none ↔
      6 ≤ file.length ∧ byteAt file 3 = 0x00#8 ∧ byteAt file 4 = 0x00#8 ∧ (byteAt file 5).getLsbD 0 = true := by
  simp only [containerCheck, and_one_eq_one_iff]
  split
  next hlen => exact iff_of_false nofun fun ⟨h, _⟩ => absurd h (Nat.not_le.mpr hlen)
  next hlen =>
    split
    next h3 => exact iff_of_false nofun fun ⟨_, h, _⟩ => h3 h
    next h3 =>
      split
      next hcode => exact iff_of_true rfl ⟨Nat.not_lt.mp hlen, not_not.mp h3, hcode⟩
      next hcode => exact iff_of_false nofun fun ⟨_, _, h⟩ => hcode h

theorem containerActions_rejected {file : List Byte} {e : ContainerError} (h : containerCheck file = some e) :
    containerActions file = .error e := by
  rw [containerActions, h]

theorem containerActions_accepted {file : List Byte} (h : containerCheck file = none) :
    containerActions file =
      .ok ([.setSrcLen (file.length - 4), .setDstCap (containerSize file)] ++ sourceWrites 0 (file.drop 4) ++
        [.start]) := by
  rw [containerActions, h]

theorem containerActions_eq_ok {file : List Byte} {acts : List HostAction} (h : containerActions file = .ok acts) :
    containerCheck file = none ∧
      acts = [.setSrcLen (file.length - 4), .setDstCap (containerSize file)] ++ sourceWrites 0 (file.drop 4) ++
        [.start] := by
  cases hc : containerCheck file with
  | none =>
    rw [containerActions_accepted hc] at h
    cases h
    exact ⟨rfl, rfl⟩
  | some e =>
    rw [containerActions_rejected hc] at h
    cases h

theorem fileVerdict_rejected {file : List Byte} {e : ContainerError} (h : containerCheck file = some e) (s : State) :
    fileVerdict file s = .rejected .invalidContainer := by
  rw [fileVerdict, h]
  exact congrArg Verdict.rejected e.kind_eq

theorem fileVerdict_accepted {file : List Byte} (h : containerCheck file = none) (s : State) :
    fileVerdict file s = hostVerdict s := by
  rw [fileVerdict, h]

/-- Settles O59, by whether the file passes the checks. -/
theorem invalidContainerRejected : Obligations.InvalidContainerRejected := by
  intro file s
  cases hc : containerCheck file with
  | none =>
    obtain ⟨hlen, h3, h4, h5⟩ := containerCheck_eq_none_iff.mp hc
    refine ⟨fun hbad => ?_, fun _ _ _ _ => ⟨fileVerdict_accepted hc s, _, containerActions_accepted hc⟩⟩
    rcases hbad with h | h | h | h
    · exact absurd hlen (Nat.not_le.mpr h)
    · exact absurd h3 h
    · exact absurd h4 h
    · exact absurd h5 (ne_true_of_eq_false h)
  | some e =>
    refine ⟨fun _ => ⟨fileVerdict_rejected hc s, e, containerActions_rejected hc⟩, fun hlen h3 h4 h5 => ?_⟩
    have hnone := containerCheck_eq_none_iff.mpr ⟨hlen, h3, h4, h5⟩
    rw [hc] at hnone
    cases hnone

/-! ## The host's actions for a container (R244, R246, R247) -/

/-- `s` with `q` as the host's coming actions. -/
def withQueue (q : List HostAction) (s : State) : State := { s with hostQueue := q }

/-- The host's actions `acts` lead from `s` to `t`, one step each, whatever the host does after them. -/
def HostRuns (acts : List HostAction) (s t : State) : Prop :=
  ∀ (q : List HostAction) (k : Nat),
    Host.Core.run Sys2Proof.core (acts.length + k) (withQueue (acts ++ q) s) =
      Host.Core.run Sys2Proof.core k (withQueue q t)

theorem HostRuns.nil (s : State) : HostRuns [] s s := fun q k => by
  rw [List.length_nil, Nat.zero_add, List.nil_append]

theorem HostRuns.append {acts acts' : List HostAction} {s t u : State} (h : HostRuns acts s t)
    (h' : HostRuns acts' t u) : HostRuns (acts ++ acts') s u := fun q k => by
  rw [List.length_append, Nat.add_assoc, List.append_assoc]
  exact (h (acts' ++ q) (acts'.length + k)).trans (h' q k)

/-- An action that the model accepts where no step of the block is enabled. -/
theorem HostRuns.single {a : HostAction} {s t : State} (hr : s.phase.isRunning = false)
    (h : ∀ q, hostAction a (withQueue q s) = .ok () (withQueue q t)) : HostRuns [a] s t := fun q k => by
  have hstep : step (withQueue (a :: q) s) = .next (withQueue q t) :=
    (step_host_cons (s := withQueue (a :: q) s) hr rfl).trans (congrArg Res.outcome (h q))
  rw [List.length_singleton, Nat.add_comm]
  exact run_next k hstep

theorem hostRuns_setSrcLen {n : Nat} {s : State} (hr : s.phase.isRunning = false) (h : n ≤ s.cfg.srcLenMax) :
    HostRuns [.setSrcLen n] s { s with srcLen := n } :=
  .single hr fun _ => if_pos h

theorem hostRuns_setDstCap {n : Nat} {s : State} (hr : s.phase.isRunning = false) (h : n ≤ Config.dstCapMax) :
    HostRuns [.setDstCap n] s { s with dstCap := n } :=
  .single hr fun _ => if_pos h

theorem hostRuns_writeSrc {i : Nat} {b : Byte} {s : State} (hr : s.phase.isRunning = false)
    (h : i < s.cfg.srcLenMax) : HostRuns [.writeSrc i b] s { s with src := s.src.write i b } :=
  .single hr fun _ => if_pos h

theorem hostRuns_start {s : State} (hr : s.phase.isRunning = false) : HostRuns [.start] s (startInvocation s) :=
  .single hr fun q => startCommand_accepted (s := withQueue q s) hr

/-- The host's writes of consecutive source bytes write them as one string (R246). -/
theorem hostRuns_sourceWrites {bytes : List Byte} {a : Nat} {s : State} (hr : s.phase.isRunning = false)
    (hfit : a + bytes.length ≤ s.cfg.srcLenMax) :
    HostRuns (sourceWrites a bytes) s { s with src := writeString s.src a bytes } := by
  induction bytes generalizing a s with
  | nil => exact .nil s
  | cons b bytes ih =>
    rw [List.length_cons] at hfit
    have hwrite := hostRuns_writeSrc (b := b) hr (show a < s.cfg.srcLenMax by omega)
    exact hwrite.append (ih hr (show a + 1 + bytes.length ≤ s.cfg.srcLenMax by omega))

/-- `s` with the source and the capacity of a container set up (R246, R247). -/
def containerLoaded (file : List Byte) (s : State) : State :=
  { s with srcLen := file.length - 4, dstCap := containerSize file, src := writeString s.src 0 (file.drop 4) }

/-- The host's actions for a container set up its source and capacity, and start the block (R244). -/
theorem hostRuns_containerActions {file : List Byte} {acts : List HostAction} {s : State}
    (h : containerActions file = .ok acts) (hcap : containerSize file ≤ Config.dstCapMax)
    (hr : s.phase.isRunning = false) (hlen : file.length - 4 ≤ s.cfg.srcLenMax) :
    HostRuns acts s (startInvocation (containerLoaded file s)) := by
  obtain ⟨-, rfl⟩ := containerActions_eq_ok h
  have hfit : 0 + (file.drop 4).length ≤ s.cfg.srcLenMax := by
    rwa [Nat.zero_add, List.length_drop]
  have hregs := (hostRuns_setSrcLen hr hlen).append (hostRuns_setDstCap hr hcap)
  have hloaded : HostRuns _ s (containerLoaded file s) := hregs.append (hostRuns_sourceWrites hr hfit)
  exact hloaded.append (hostRuns_start hr)

/-- The length header of a file whose 4th byte is zero has 24 bits (R70). -/
theorem containerSize_le {file : List Byte} (h : byteAt file 3 = 0x00#8) : containerSize file ≤ Config.dstCapMax := by
  have h0 := (byteAt file 0).isLt
  have h1 := (byteAt file 1).isLt
  have h2 := (byteAt file 2).isLt
  have h3 : (byteAt file 3).toNat = 0 := congrArg BitVec.toNat h
  rw [containerSize, Config.dstCapMax]
  omega

/-- The loaded source holds the file from byte 4 on. -/
theorem containerLoaded_src_read {file : List Byte} {s : State} {a : Nat} (ha : a < file.length - 4) :
    (containerLoaded file s).src.read a = file[4 + a]? := by
  have hcover : a < 0 + (file.drop 4).length := by
    rwa [Nat.zero_add, List.length_drop]
  rw [containerLoaded, writeString_read_covered s.src (Nat.zero_le a) hcover, Nat.sub_zero, List.getElem?_drop]

/-- Settles O56: the run ends in `START` on `containerLoaded`, and the header of a file that passes has 24 bits. -/
theorem containerSetsUpInvocation : Obligations.ContainerSetsUpInvocation := by
  intro file acts s hacts hr hlen
  obtain ⟨hcheck, -⟩ := containerActions_eq_ok hacts
  obtain ⟨-, h3, -⟩ := containerCheck_eq_none_iff.mp hcheck
  have hcap := containerSize_le h3
  have hrun := hostRuns_containerActions hacts hcap hr hlen [] 0
  rw [List.append_nil] at hrun
  exact ⟨_, hrun, rfl, rfl, rfl, rfl, rfl, rfl, rfl, rfl, hcap, fun _ => containerLoaded_src_read⟩

end Sys2Proof.Machine
end
